-- ==== Sys2Proof/Word.lean ====
section
/-! DEFINITION. The bit vectors the spec names: bytes, 32-bit words and addresses, 64-bit register values. -/

namespace Sys2Proof

/-- One byte of memory (R40). -/
abbrev Byte := BitVec 8

/-- A 32-bit instruction word or loaded word (R46, R60). -/
abbrev Word := BitVec 32

/-- A 32-bit byte address: an effective address or a program counter (R23, R40). -/
abbrev Addr := BitVec 32

/-- The contents of a general register, 64 bits (R20). -/
abbrev DWord := BitVec 64

end Sys2Proof
end

