-- ==== Sys2Proof/Syntax.lean ====
section
/-! DEFINITION. The instructions as syntax: one constructor per row of spec/opcode_table.json. -/

namespace Sys2Proof

/-- The number of a general register, `r0` to `r31` (R20). -/
abbrev RegNum := Fin 32

/-- The four mnemonics (R66, R75). -/
inductive Mnemonic where
  | lwz
  | lwzu
  | lwzux
  | lwzx
  deriving DecidableEq, Repr

/-- An instruction with its operand fields (R62, R63). `d` is the displacement field before sign extension (R64). -/
inductive Instr where
  /-- R94: Load Word and Zero. -/
  | lwz (rt ra : RegNum) (d : BitVec 16)
  /-- R95: Load Word and Zero with Update. -/
  | lwzu (rt ra : RegNum) (d : BitVec 16)
  /-- R96: Load Word and Zero with Update Indexed. -/
  | lwzux (rt ra rb : RegNum)
  /-- R97: Load Word and Zero Indexed. -/
  | lwzx (rt ra rb : RegNum)
  deriving DecidableEq, Repr

/-- The mnemonic of an instruction. -/
def Instr.mnemonic : Instr → Mnemonic
  | .lwz _ _ _ => .lwz
  | .lwzu _ _ _ => .lwzu
  | .lwzux _ _ _ => .lwzux
  | .lwzx _ _ _ => .lwzx

end Sys2Proof
end

