-- ==== Sys2Proof/WellFormed.lean ====
section
/-! DEFINITION. Which instructions are valid forms (R69): the update forms need `RA` other than 0 and other than `RT`. -/

namespace Sys2Proof

/-- R69 (a): the base register of an update form is not number 0. -/
def baseIsNotZero (ra : RegNum) : Bool := ra ≠ 0

/-- R69 (b): the base register of an update form is not its destination. -/
def baseIsNotTarget (rt ra : RegNum) : Bool := ra ≠ rt

/-- R69: every form of `lwz` and `lwzx` is valid; an update form must pass both checks. -/
def Instr.wellFormed : Instr → Bool
  | .lwz _ _ _ => true
  | .lwzu rt ra _ => baseIsNotZero ra && baseIsNotTarget rt ra
  | .lwzux rt ra _ => baseIsNotZero ra && baseIsNotTarget rt ra
  | .lwzx _ _ _ => true

end Sys2Proof
end

