-- ==== Sys2Proof/Decode.lean ====
section
/-! DEFINITION. Encoding and decoding (R54, R60 to R70): IBM-numbered fields, the opcode map, the total decoder with its
reasons, the encoder, and the byte order of a word in memory. -/

namespace Sys2Proof

/-- Why the decoder gives a word no instruction. Each refusal is safe: no meaning is given. -/
inductive Reject where
  /-- R68: `OPCD` 31, `XO` 23 or 55, and bit 31 set. -/
  | reservedBitSet (w : Word)
  /-- R70: the word matches none of the four patterns. -/
  | notInScope (w : Word)
  /-- R60: fewer than the four bytes of a word are left; only the byte decoder answers so (log 15). -/
  | tooFewBytes
  deriving DecidableEq, Repr

/-- R6, R61: the field at IBM bits `a` to `b` of an instruction word, bit 0 the most significant. -/
def ibm (w : Word) (a b : Nat) : Nat := (w.toNat >>> (31 - b)) &&& (2 ^ (b - a + 1) - 1)

/-- R61: `OPCD`, IBM bits 0 to 5. -/
def fieldOpcd (w : Word) : Nat := ibm w 0 5

/-- R61: `RT`, IBM bits 6 to 10. -/
def fieldRt (w : Word) : RegNum := Fin.ofNat 32 (ibm w 6 10)

/-- R61: `RA`, IBM bits 11 to 15. -/
def fieldRa (w : Word) : RegNum := Fin.ofNat 32 (ibm w 11 15)

/-- R61: `D`, IBM bits 16 to 31, of the D form. -/
def fieldD (w : Word) : BitVec 16 := BitVec.ofNat 16 (ibm w 16 31)

/-- R61: `RB`, IBM bits 16 to 20, of the X form. -/
def fieldRb (w : Word) : RegNum := Fin.ofNat 32 (ibm w 16 20)

/-- R61: `XO`, IBM bits 21 to 30, of the X form. -/
def fieldXo (w : Word) : Nat := ibm w 21 30

/-- R61: `Rc`, IBM bit 31, of the X form. -/
def fieldRc (w : Word) : Nat := ibm w 31 31

/-- R66: the opcode word of a row, every operand field zero. -/
def matchWord : Mnemonic → Word
  | .lwz => 0x80000000
  | .lwzu => 0x84000000
  | .lwzux => 0x7C00006E
  | .lwzx => 0x7C00002E

/-- R66: the bits of a row that are not operand bits. -/
def maskWord : Mnemonic → Word
  | .lwz => 0xFC000000
  | .lwzu => 0xFC000000
  | .lwzux => 0xFC0007FF
  | .lwzx => 0xFC0007FF

/-- R67: every word is one of the four instructions or is refused with its reason. The invalid forms of R69 decode, and
their meanings refuse them. -/
def decode (w : Word) : Except Reject Instr :=
  if fieldOpcd w = 32 then .ok (.lwz (fieldRt w) (fieldRa w) (fieldD w))
  else if fieldOpcd w = 33 then .ok (.lwzu (fieldRt w) (fieldRa w) (fieldD w))
  else if fieldOpcd w = 31 then
    if fieldXo w = 23 ∧ fieldRc w = 0 then .ok (.lwzx (fieldRt w) (fieldRa w) (fieldRb w))
    else if fieldXo w = 55 ∧ fieldRc w = 0 then .ok (.lwzux (fieldRt w) (fieldRa w) (fieldRb w))
    else if fieldXo w = 23 ∨ fieldXo w = 55 then .error (.reservedBitSet w)
    else .error (.notInScope w)
  else .error (.notInScope w)

/-- R61: a register number placed with its least significant bit at bit `shift`, counted from the least significant end. -/
def placeReg (r : RegNum) (shift : Nat) : Word := BitVec.ofNat 32 r.val <<< shift

/-- R67: the D form's word. -/
def encodeD (m : Mnemonic) (rt ra : RegNum) (d : BitVec 16) : Word :=
  matchWord m ||| placeReg rt 21 ||| placeReg ra 16 ||| d.setWidth 32

/-- R67: the X form's word; bit 31 (`Rc`) stays 0 (R68). -/
def encodeX (m : Mnemonic) (rt ra rb : RegNum) : Word :=
  matchWord m ||| placeReg rt 21 ||| placeReg ra 16 ||| placeReg rb 11

/-- R67: the word of an instruction. -/
def encode : Instr → Word
  | .lwz rt ra d => encodeD .lwz rt ra d
  | .lwzu rt ra d => encodeD .lwzu rt ra d
  | .lwzux rt ra rb => encodeX .lwzux rt ra rb
  | .lwzx rt ra rb => encodeX .lwzx rt ra rb

/-- R41, R42: four bytes, lowest address first, as one word: the byte at the lowest address is the most significant. -/
def wordOfBytes (b0 b1 b2 b3 : Byte) : Word :=
  (b0.setWidth 32 <<< 24) ||| (b1.setWidth 32 <<< 16) ||| (b2.setWidth 32 <<< 8) ||| b3.setWidth 32

/-- R41, R54: the four bytes of a word in memory order. -/
def bytesOfWord (w : Word) : List Byte :=
  [w.extractLsb' 24 8, w.extractLsb' 16 8, w.extractLsb' 8 8, w.extractLsb' 0 8]

/-- The bytes of an instruction in memory order (R54). -/
def encodeBytes (i : Instr) : List Byte := bytesOfWord (encode i)

/-- R54, R60: decode the first four bytes and give back the rest. -/
def decodeBytes : List Byte → Except Reject (Instr × List Byte)
  | b0 :: b1 :: b2 :: b3 :: rest =>
    match decode (wordOfBytes b0 b1 b2 b3) with
    | .ok i => .ok (i, rest)
    | .error r => .error r
  | _ => .error .tooFewBytes

/-- R54: a program text given as bytes, cut into words; a rest of fewer than four bytes is no word. -/
def wordsOfBytes : List Byte → List Word
  | b0 :: b1 :: b2 :: b3 :: rest => wordOfBytes b0 b1 b2 b3 :: wordsOfBytes rest
  | _ => []

/-- A row's word, its bits numbered as spec/opcode_table.json numbers them (bit 0 the least significant bit of the one 32-bit
word of an instruction), laid out big-endian (R54) and read by the decoder. -/
def decodeTableWord (nbits w : Nat) : Option Instr :=
  match decodeBytes (bytesOfWord (BitVec.ofNat 32 (w % 2 ^ nbits))) with
  | .ok (i, _) => some i
  | .error _ => none

end Sys2Proof
end

