-- ==== Sys2Proof/Config.lean ====
section
/-! DEFINITION. The parameters of the hardware that the spec leaves to the launch (R5), as plain data, and the reset values
the model chooses where the spec gives none. -/

namespace Sys2Proof.Config

/-- `RA_UPDATE_MODE` (R5, R92): which 64 bits an update form writes to its base register. -/
inductive RaUpdateMode where
  | low32
  | full64
  deriving DecidableEq, Repr

/-- `ProgramText` (R5, R54): word number `i` of `words` stands at address `base + 4 * i`. -/
structure ProgramText where
  base : Addr
  words : List Word
  deriving DecidableEq, Repr

/-- One range of readable bytes, both ends included; `Admits` (R45) is a list of them. -/
structure ByteRange where
  first : Addr
  last : Addr
  deriving DecidableEq, Repr

/-- DESIGN CHOICE (log 1), unsafe: what every general register holds at reset; the spec gives no value (R31). -/
def resetRegister : DWord := 0

/-- DESIGN CHOICE (log 2), unsafe: the program counter at reset; the spec gives no value (R31). -/
def resetPc : Addr := 0

/-- DESIGN CHOICE (log 2), safe: no program stands anywhere at reset; the host loads one (R149, log 3). -/
def resetText : ProgramText := { base := 0, words := [] }

/-- The default of `RA_UPDATE_MODE` (R5, R92; log 6). -/
def defaultRaUpdateMode : RaUpdateMode := .low32

end Sys2Proof.Config
end

