-- ==== Sys2Proof/Machine/State.lean ====
section
/-! DEFINITION. The state of the machine as plain data (R32), the parameters of the step (R5), the reasons a step can stop
(R121), and the state at reset. -/

namespace Sys2Proof.Machine

open Sys2Proof.Config

/-- The faults of R121. All are safe: the model stops where the hardware does something the spec does not describe. -/
inductive Fault where
  /-- R45: raised by all four loads when the four bytes at `ea` are not all admitted. Safe (log 5, 11). -/
  | loadNotAdmitted (ea : Addr)
  /-- R44: raised by all four loads when `ea` is above 0xFFFF_FFFC. Safe (log 10). -/
  | loadWraps (ea : Addr)
  /-- R31, R42: raised by all four loads when an admitted byte holds no value; `addr` is the lowest such byte. Safe (log 4). -/
  | unwrittenMemory (addr : Addr)
  /-- R31: raised by all four loads when a source register holds no value, which no register does at reset. Safe (log 1). -/
  | unwrittenRegister (i : RegNum)
  deriving DecidableEq, Repr

/-- The refusals of R121, and the two that are the interface's and the model's own. All are safe: no meaning is given. -/
inductive Refusal where
  /-- The interface's: an arm of `exec` that has no meaning yet. Safe. No arm answers so. -/
  | notModelled (mnemonic : String)
  /-- R69: raised by `lwzu` and `lwzux` when `RA` is 0 or `RT`; `w` is the word. Safe (log 12). -/
  | invalidForm (w : Word)
  /-- R68: raised by decoding when bit 31 of an X-form word of the family is set. Safe (log 13). -/
  | reservedBitSet (w : Word)
  /-- R70: raised by decoding when the word is none of the four instructions. Safe (log 14). -/
  | notInScope (w : Word)
  /-- R25: raised by all four loads when `pc` is 0xFFFF_FFFC. Safe (log 9). -/
  | pcWrap (pc : Addr)
  /-- R54: raised by fetching when no word of the program text stands at `pc` and the run has not ended. Safe (log 15). -/
  | pcOutsideText (pc : Addr)
  /-- R23, R54: raised by fetching when `pc` is not a multiple of 4. Safe (log 9). -/
  | pcMisaligned (pc : Addr)
  /-- R143: the answer of a step asked for after the run has ended; the spec gives no such step. Safe (log 16). -/
  | endOfRun (pc : Addr)
  deriving DecidableEq, Repr

/-- R9, R32: a recorded fault or refusal. -/
inductive Mark where
  | fault (f : Fault)
  | refused (r : Refusal)
  deriving DecidableEq, Repr

/-- R29: data memory, the bytes that hold a value, addresses strictly rising. An address that is not listed holds no value
(R31, log 4). -/
abbrev Memory := List Host.Cell

/-- The canonical form: addresses strictly rising and below 2^32 (R40). -/
def Memory.wf : Memory → Bool
  | [] => true
  | [(a, _)] => decide (a < 2 ^ 32)
  | (a, _) :: (a', b') :: rest => decide (a < a') && Memory.wf ((a', b') :: rest)

/-- R32: the tuple `x`, `pc`, `mem`, `marks`, and with it the parameters of the step (R5, log 7). -/
structure State where
  /-- R20, R32: the general registers, each a 64-bit value or, in a launch state that gives it none, no value (R31). -/
  x : Vector (Option DWord) 32
  /-- R23: the address of the instruction being executed. -/
  pc : Addr
  /-- R29: data memory. -/
  mem : Memory
  /-- R9, R32: the fault or refusal recorded so far. -/
  mark : Option Mark
  /-- R54: the program text, a parameter. -/
  text : ProgramText
  /-- R45: the readable byte ranges, a parameter. -/
  admits : List ByteRange
  /-- R92: what an update form writes to its base register, a parameter. -/
  raUpdateMode : RaUpdateMode
  /-- R51: for each read event to come, the bytes another agent makes it see, a parameter; empty for the single agent. -/
  oracle : List (List Host.Cell)
  deriving DecidableEq, Repr

/-- The machine at reset. The spec gives no reset value (R31, R140): registers and `pc` are DESIGN CHOICES (log 1, 2), memory
lists nothing and admits nothing (R31, D13), the other parameters have the defaults of R5. -/
def State.reset : State where
  x := Vector.replicate 32 (some resetRegister)
  pc := resetPc
  mem := []
  mark := none
  text := resetText
  admits := []
  raUpdateMode := defaultRaUpdateMode
  oracle := []

end Sys2Proof.Machine
end

