-- ==== Sys2Proof/Machine/Ops.lean ====
section
/-! DEFINITION. The named operations over registers, memory and the program text, and the one way a step ends (R9). -/

namespace Sys2Proof.Machine

open Sys2Proof.Config

/-- The outcome of a step (R9). -/
abbrev Result := Host.Outcome State Fault Refusal

/-! ### Registers (R8, R20, R21) -/

/-- R8, R31: `x[i]`, every register the same way, `r0` included; a register that holds no value faults. -/
def readReg (s : State) (i : RegNum) : Except Fault DWord :=
  match s.x[i] with
  | some v => .ok v
  | none => .error (.unwrittenRegister i)

/-- R8: `x[i] <- v`, every register the same way. -/
def State.writeReg (s : State) (i : RegNum) (v : DWord) : State := { s with x := s.x.set i (some v) }

/-- R24: `pc <- pc + 4`. -/
def State.advancePc (s : State) : State := { s with pc := s.pc + 4 }

/-! ### Memory (R29, R40 to R48) -/

/-- R29, R31: the byte at an address, or no value. -/
def Memory.read : Memory → Nat → Option Byte
  | [], _ => none
  | (a, b) :: rest, addr => if a = addr then some b else Memory.read rest addr

/-- R149: the host gives a byte of the launch memory its value. No instruction in scope writes memory (R29). -/
def Memory.write : Memory → Nat → Byte → Memory
  | [], addr, v => [(addr, v)]
  | (a, b) :: rest, addr, v =>
    if addr < a then (addr, v) :: (a, b) :: rest
    else if addr = a then (addr, v) :: rest
    else (a, b) :: Memory.write rest addr v

/-- R149: the host gives consecutive bytes their values, lowest address first. -/
def Memory.writeBytes (m : Memory) (addr : Nat) : List Byte → Memory
  | [] => m
  | b :: rest => Memory.writeBytes (m.write addr b) (addr + 1) rest

/-- R45: a byte address lies in a range. -/
def rangeHolds (r : ByteRange) (addr : Nat) : Bool := decide (r.first.toNat ≤ addr) && decide (addr ≤ r.last.toNat)

/-- R45: one byte may be read. -/
def admitsByte (ranges : List ByteRange) (addr : Nat) : Bool := ranges.any fun r => rangeHolds r addr

/-- R45: `Admits(a, n)`, the `n` bytes at `a` may all be read (log 5). -/
def admitsBytes (ranges : List ByteRange) (addr n : Nat) : Bool :=
  (List.range n).all fun k => admitsByte ranges (addr + k)

/-- R47: an aligned load is one read event, a misaligned one is four. -/
def readEvents (a : Addr) : Nat := if a.toNat % 4 = 0 then 1 else 4

/-- R47: the read event, counted from 0, that reads byte `k` of a load at `a`. -/
def eventOfByte (a : Addr) (k : Nat) : Nat := if a.toNat % 4 = 0 then 0 else k

/-- R51: the byte a read event sees: what another agent makes it see, or else the byte in memory. With no other agent the
oracle is empty and this is the byte in memory. -/
def byteSeen (s : State) (event addr : Nat) : Option Byte :=
  match Memory.read (s.oracle.getD event []) addr with
  | some b => some b
  | none => s.mem.read addr

/-- R42: byte `k` of a load at `a`, or the fault of R31. -/
def loadByte (s : State) (a : Addr) (k : Nat) : Except Fault Byte :=
  match byteSeen s (eventOfByte a k) (a.toNat + k) with
  | some b => .ok b
  | none => .error (.unwrittenMemory (a + BitVec.ofNat 32 k))

/-- R42: the last address at which a 4-byte read does not run past the top of the address space. -/
def lastWordAddr : Addr := 0xFFFFFFFC

/-- R42: the four bytes of a load, the lowest address first; the first without a value faults. -/
def loadWord (s : State) (a : Addr) : Except Fault Word :=
  match loadByte s a 0, loadByte s a 1, loadByte s a 2, loadByte s a 3 with
  | .ok b0, .ok b1, .ok b2, .ok b3 => .ok (wordOfBytes b0 b1 b2 b3)
  | .error f, _, _, _ => .error f
  | .ok _, .error f, _, _ => .error f
  | .ok _, .ok _, .error f, _ => .error f
  | .ok _, .ok _, .ok _, .error f => .error f

/-- R42: `MemRead(a, 4)`, at any alignment (R43). -/
def memRead (s : State) (a : Addr) : Except Fault Word :=
  if lastWordAddr < a then .error (.loadWraps a)
  else if admitsBytes s.admits a.toNat 4 then loadWord s a
  else .error (.loadNotAdmitted a)

/-- R48, R51: a read changes no memory; only the oracle's answers to its read events are used up. -/
def State.afterRead (s : State) (a : Addr) : State := { s with oracle := s.oracle.drop (readEvents a) }

/-! ### Fetching (R54) -/

/-- R54, R143: the address just past the last word, as a number. -/
def textEnd (t : ProgramText) : Nat := t.base.toNat + 4 * t.words.length

/-- R54: the word that stands at an address, where word `i` stands at `base + 4 * i`. -/
def wordAt (t : ProgramText) (pc : Addr) : Option Word :=
  if t.base.toNat ≤ pc.toNat ∧ (pc.toNat - t.base.toNat) % 4 = 0 then t.words[(pc.toNat - t.base.toNat) / 4]?
  else none

/-- R54, R143: the word at `pc`, or why there is none. -/
def fetch (s : State) : Except Refusal Word :=
  if s.pc.toNat % 4 ≠ 0 then .error (.pcMisaligned s.pc)
  else
    match wordAt s.text s.pc with
    | some w => .ok w
    | none => if s.pc.toNat = textEnd s.text then .error (.endOfRun s.pc) else .error (.pcOutsideText s.pc)

/-- R67, R121: the refusal a decoder's verdict becomes. A word is never too short, so the last case does not arise. -/
def refusalOfReject (w : Word) : Reject → Refusal
  | .reservedBitSet w => .reservedBitSet w
  | .notInScope w => .notInScope w
  | .tooFewBytes => .notInScope w

/-- R54: the program text with a word placed at `pc`: in the text that stands there, or else as a text of its own. -/
def placeWord (t : ProgramText) (pc : Addr) (w : Word) : ProgramText :=
  match wordAt t pc with
  | some _ => { t with words := t.words.set ((pc.toNat - t.base.toNat) / 4) w }
  | none => { base := pc, words := [w] }

/-- R23: the multiple of 4 at or below an address. -/
def alignPc (pc : Addr) : Addr := BitVec.ofNat 32 (pc.toNat / 4 * 4)

/-! ### How a step ends (R9, R120, R121) -/

/-- R9, R120: the outcome a mark stands for; it is never cleared. -/
def resultOfMark : Mark → Result
  | .fault f => .fault f
  | .refused r => .refused r

/-- R9, R93, R120: the state after a step with the given outcome: a fault or a refusal changes nothing and is recorded, once.
The end of a run (R143) is neither, and records nothing (log 16). -/
def State.record (s : State) : Result → State
  | .next t => t
  | .fault f => { s with mark := some (.fault f) }
  | .refused (.endOfRun _) => s
  | .refused r => { s with mark := some (.refused r) }

/-- The next state of an outcome, if it has one. -/
def nextOf : Result → Option State
  | .next t => some t
  | .fault _ => none
  | .refused _ => none

/-- Why an outcome stopped, if it did. -/
def stopOf : Result → Option Mark
  | .next _ => none
  | .fault f => some (.fault f)
  | .refused r => some (.refused r)

end Sys2Proof.Machine
end

