-- ==== Sys2Proof/Machine/Operands.lean ====
section
/-! DEFINITION. The operand forms of the four loads (R64, R65, R90), the value an update form writes back (R92), the
validity of an update form (R69), and which registers an instruction reads and writes (R22). -/

namespace Sys2Proof.Machine

open Sys2Proof.Config

/-- R64: `sext_64(D)`. -/
def sext64 (d : BitVec 16) : DWord := d.signExtend 64

/-- R91: `zext_64(word)`. -/
def zext64 (w : Word) : DWord := w.setWidth 64

/-- R65: the base of `lwz` and `lwzx`: field value 0 is the literal zero and reads no register (R21). -/
def baseRA0 (s : State) (ra : RegNum) : Except Fault DWord := if ra = 0 then .ok 0 else readReg s ra

/-- R65: the base of `lwzu` and `lwzux`: the register. -/
def baseRA (s : State) (ra : RegNum) : Except Fault DWord := readReg s ra

/-- R64: the offset of `lwz` and `lwzu`: the displacement. -/
def offsetD (d : BitVec 16) : Except Fault DWord := .ok (sext64 d)

/-- R65: the offset of `lwzx` and `lwzux`: the index register, `r0` included. -/
def offsetRB (s : State) (rb : RegNum) : Except Fault DWord := readReg s rb

/-- R90: the 64-bit sum of base and offset, modulo 2^64. -/
def addressSum (base off : DWord) : DWord := base + off

/-- R90: the effective address, the low 32 bits of the sum (log 8). -/
def effAddr (sum : DWord) : Addr := sum.setWidth 32

/-- R92: what an update form writes to its base register. -/
def upd (mode : RaUpdateMode) (sum : DWord) : DWord :=
  match mode with
  | .low32 => zext64 (effAddr sum)
  | .full64 => sum

/-- R69: an update form with `RA = 0` or `RA = RT`. -/
def invalidUpdateForm (rt ra : RegNum) : Bool := ra = 0 || ra = rt

/-- R22: the registers an instruction reads, in the order of R124. -/
def regsRead : Instr → List RegNum
  | .lwz _ ra _ => if ra = 0 then [] else [ra]
  | .lwzu _ ra _ => [ra]
  | .lwzux _ ra rb => [ra, rb]
  | .lwzx _ ra rb => if ra = 0 then [rb] else [ra, rb]

/-- R22: the registers an instruction writes, in the order it writes them. -/
def regsWritten : Instr → List RegNum
  | .lwz rt _ _ => [rt]
  | .lwzu rt ra _ => [rt, ra]
  | .lwzux rt ra _ => [rt, ra]
  | .lwzx rt _ _ => [rt]

/-- R92: the base register an instruction writes back to, if it is an update form. -/
def updateOf : Instr → Option RegNum
  | .lwz _ _ _ => none
  | .lwzu _ ra _ => some ra
  | .lwzux _ ra _ => some ra
  | .lwzx _ _ _ => none

/-- R91: the destination register, field `RT`. -/
def targetOf : Instr → RegNum
  | .lwz rt _ _ => rt
  | .lwzu rt _ _ => rt
  | .lwzux rt _ _ => rt
  | .lwzx rt _ _ => rt

/-- R90: the base operand of an instruction. -/
def baseOf (s : State) : Instr → Except Fault DWord
  | .lwz _ ra _ => baseRA0 s ra
  | .lwzu _ ra _ => baseRA s ra
  | .lwzux _ ra _ => baseRA s ra
  | .lwzx _ ra _ => baseRA0 s ra

/-- R90: the offset operand of an instruction. -/
def offsetOf (s : State) : Instr → Except Fault DWord
  | .lwz _ _ d => offsetD d
  | .lwzu _ _ d => offsetD d
  | .lwzux _ _ rb => offsetRB s rb
  | .lwzx _ _ rb => offsetRB s rb

/-- R90: the sum an instruction forms, or the fault of the first source register that holds no value (R124: `RA` before
`RB`). -/
def sumOf (base off : Except Fault DWord) : Except Fault DWord :=
  match base, off with
  | .ok b, .ok o => .ok (addressSum b o)
  | .error f, _ => .error f
  | .ok _, .error f => .error f

end Sys2Proof.Machine
end

