-- ==== Sys2Proof/Machine/LoadWord.lean ====
section
/-! DEFINITION. The meanings of `lwz`, `lwzu`, `lwzux` and `lwzx` (R90 to R99), over one shared load. -/

namespace Sys2Proof.Machine

/-- R93, stages 7 to 9: write the destination, write back the base of an update form, advance `pc`; all or none. -/
def completeLoad (s : State) (rt : RegNum) (update : Option RegNum) (sum : DWord) (word : Word) : State :=
  let loaded := (s.afterRead (effAddr sum)).writeReg rt (zext64 word)
  match update with
  | none => loaded.advancePc
  | some ra => (loaded.writeReg ra (upd s.raUpdateMode sum)).advancePc

/-- R93, stages 3 to 9, with the sum or the register fault of stages 4 and 5: the first check that fails stops the step and
nothing is changed. -/
def load (s : State) (rt : RegNum) (update : Option RegNum) (sum : Except Fault DWord) : Result :=
  if s.pc = lastWordAddr then .refused (.pcWrap s.pc)
  else
    match sum with
    | .error f => .fault f
    | .ok sum =>
      match memRead s (effAddr sum) with
      | .error f => .fault f
      | .ok word => .next (completeLoad s rt update sum word)

/-- R94. -/
def execLwz (rt ra : RegNum) (d : BitVec 16) (s : State) : Result :=
  load s rt none (sumOf (baseRA0 s ra) (offsetD d))

/-- R95. An invalid form is refused before anything else (R93, stage 2). -/
def execLwzu (rt ra : RegNum) (d : BitVec 16) (s : State) : Result :=
  if invalidUpdateForm rt ra then .refused (.invalidForm (encode (.lwzu rt ra d)))
  else load s rt (some ra) (sumOf (baseRA s ra) (offsetD d))

/-- R96. An invalid form is refused before anything else (R93, stage 2). -/
def execLwzux (rt ra rb : RegNum) (s : State) : Result :=
  if invalidUpdateForm rt ra then .refused (.invalidForm (encode (.lwzux rt ra rb)))
  else load s rt (some ra) (sumOf (baseRA s ra) (offsetRB s rb))

/-- R97. -/
def execLwzx (rt ra rb : RegNum) (s : State) : Result :=
  load s rt none (sumOf (baseRA0 s ra) (offsetRB s rb))

end Sys2Proof.Machine
end

