-- ==== Sys2Proof/Machine/Step.lean ====
section
/-! DEFINITION. One step of the machine (R93): a recorded mark, then fetch, decode and execute. -/

namespace Sys2Proof.Machine

open Sys2Proof.Config

/-- R93, stage 1 on: a marked state answers its mark for ever (R9, R120); otherwise the word at `pc` is fetched (R54), decoded
(R67) and executed. -/
def step (s : State) : Host.Outcome State Fault Refusal :=
  match s.mark with
  | some m => resultOfMark m
  | none =>
    match fetch s with
    | .error r => .refused r
    | .ok w =>
      match decode w with
      | .error r => .refused (refusalOfReject w r)
      | .ok i => exec i s

/-- R149, log 3: the host's launch of one word where the next step fetches: placed in the program text at `pc`, with `pc` a
multiple of 4 (R23) and no mark recorded (R142). -/
def State.withFetchWord (s : State) (nbits w : Nat) : State :=
  let pc := alignPc s.pc
  { s with pc := pc, mark := none, text := placeWord s.text pc (BitVec.ofNat 32 (w % 2 ^ nbits)) }

end Sys2Proof.Machine
end

