-- ==== Sys2Proof/Machine/Assembly.lean ====
section
/-! DEFINITION. The assembler syntax of the family (R3, R72 to R75): spelling an instruction, and reading its spelling back.
Text is a list of characters. What the spec leaves open of a toolchain's spelling is log 27. -/

namespace Sys2Proof.Machine

/-- The pieces of an assembler line. `hex` says that a number was spelled with `0x` (R74). -/
inductive Token where
  | mnemonic (m : Mnemonic)
  | reg (r : RegNum)
  | num (z : Int) (hex : Bool)
  | comma
  | lparen
  | rparen
  deriving DecidableEq, Repr

/-! ### From an instruction to its text -/

/-- R73: an `RA` operand as it is written: the bare number 0 for field value 0, the register otherwise. -/
def baseToken (ra : RegNum) : Token := if ra = 0 then .num 0 false else .reg ra

/-- R72, R74: destination, displacement, base in parentheses. -/
def asmD (m : Mnemonic) (rt ra : RegNum) (d : BitVec 16) : List Token :=
  [.mnemonic m, .reg rt, .comma, .num d.toInt false, .lparen, baseToken ra, .rparen]

/-- R72: destination, base, index. -/
def asmX (m : Mnemonic) (rt ra rb : RegNum) : List Token :=
  [.mnemonic m, .reg rt, .comma, baseToken ra, .comma, .reg rb]

/-- R72 to R74: the assembler line of an instruction. -/
def asmTokens : Instr → List Token
  | .lwz rt ra d => asmD .lwz rt ra d
  | .lwzu rt ra d => asmD .lwzu rt ra d
  | .lwzux rt ra rb => asmX .lwzux rt ra rb
  | .lwzx rt ra rb => asmX .lwzx rt ra rb

/-- R72, R75: the four mnemonics as they are spelled. -/
def spellMnemonic : Mnemonic → List Char
  | .lwz => ['l', 'w', 'z']
  | .lwzu => ['l', 'w', 'z', 'u']
  | .lwzux => ['l', 'w', 'z', 'u', 'x']
  | .lwzx => ['l', 'w', 'z', 'x']

/-- R74: a signed number in decimal. -/
def spellInt : Int → List Char
  | .ofNat n => Nat.toDigits 10 n
  | .negSucc n => '-' :: Nat.toDigits 10 (n + 1)

/-- R72, R73: one piece as it is spelled, with a space after the mnemonic and after a comma. -/
def spellToken : Token → List Char
  | .mnemonic m => spellMnemonic m ++ [' ']
  | .reg r => 'r' :: Nat.toDigits 10 r.val
  | .num z _ => spellInt z
  | .comma => [',', ' ']
  | .lparen => ['(']
  | .rparen => [')']

/-- R72 to R74: the text of an instruction. -/
def asmText (i : Instr) : List Char := (asmTokens i).flatMap spellToken

/-! ### From text to an instruction -/

/-- The value of a digit in a number base up to 16. -/
def digitValue (base : Nat) (c : Char) : Option Nat :=
  let v :=
    if '0' ≤ c ∧ c ≤ '9' then c.toNat - '0'.toNat
    else if 'a' ≤ c ∧ c ≤ 'f' then c.toNat - 'a'.toNat + 10
    else if 'A' ≤ c ∧ c ≤ 'F' then c.toNat - 'A'.toNat + 10
    else base
  if v < base then some v else none

/-- A number's digits, the most significant first, after the value `acc` of the digits before them. -/
def readDigits (base : Nat) : Nat → List Char → Option Nat
  | acc, [] => some acc
  | acc, c :: cs =>
    match digitValue base c with
    | some v => readDigits base (acc * base + v) cs
    | none => none

/-- R74: an unsigned number, decimal or `0x` hexadecimal, and whether it was the latter. -/
def readNat : List Char → Option (Nat × Bool)
  | [] => none
  | '0' :: 'x' :: [] => none
  | '0' :: 'x' :: cs => (readDigits 16 0 cs).map fun n => (n, true)
  | cs => (readDigits 10 0 cs).map fun n => (n, false)

/-- R74: a signed number. -/
def readInt : List Char → Option (Int × Bool)
  | '-' :: cs => (readNat cs).map fun n => (-(n.1 : Int), n.2)
  | cs => (readNat cs).map fun n => ((n.1 : Int), n.2)

/-- R73: a register number, 0 to 31 in decimal; leading zeros are read too (log 27). -/
def readRegNum (cs : List Char) : Option RegNum :=
  match cs, readDigits 10 0 cs with
  | [], _ => none
  | _, some n => if h : n < 32 then some ⟨n, h⟩ else none
  | _, none => none

/-- One word of a line: a mnemonic (R75: only the four), a register or a number. -/
def readWord (cs : List Char) : Option Token :=
  if cs = spellMnemonic .lwz then some (.mnemonic .lwz)
  else if cs = spellMnemonic .lwzu then some (.mnemonic .lwzu)
  else if cs = spellMnemonic .lwzux then some (.mnemonic .lwzux)
  else if cs = spellMnemonic .lwzx then some (.mnemonic .lwzx)
  else
    match cs with
    | 'r' :: ds => (readRegNum ds).map .reg
    | ds => (readInt ds).map fun n => .num n.1 n.2

/-- The word read so far, as no piece if it is empty. -/
def flushWord (word : List Char) : Option (List Token) :=
  match word with
  | [] => some []
  | cs => (readWord cs).map fun t => [t]

/-- Punctuation, which ends a word; a space leaves no piece of its own. -/
def punctuation (c : Char) : Option (List Token) :=
  if c = ' ' then some []
  else if c = ',' then some [.comma]
  else if c = '(' then some [.lparen]
  else if c = ')' then some [.rparen]
  else none

/-- Cut a text into its pieces; `word` holds the characters of the word being read. DESIGN CHOICE (log 27): a line carries no
comment, a point the spec leaves open (N27): `;` is a character like another, so a word that holds one is no piece (`readWord`) and
the line is refused. A space is the only blank; a tab or another character outside R72 to R74 is refused the same way. -/
def tokenize (word : List Char) : List Char → Option (List Token)
  | [] => flushWord word
  | c :: cs =>
    match punctuation c with
    | none => tokenize (word ++ [c]) cs
    | some p =>
      match flushWord word, tokenize [] cs with
      | some w, some rest => some (w ++ p ++ rest)
      | _, _ => none

/-- R73: the `RA` field of `lwz` and `lwzx`: the bare number 0 and `r0` both stand for field value 0. DESIGN CHOICE (log 27): any
spelling of the number zero is read so (`0x0`, `-0`, `00`), where R73 names only the bare `0` and the spec leaves number bases
open (N27). -/
def readRA0 : Token → Option RegNum
  | .num z _ => if z = 0 then some 0 else none
  | .reg r => some r
  | _ => none

/-- R69, R73: the `RA` field of `lwzu` and `lwzux`: an assembler refuses `lwzu RT, d(0)`. DEDUCED (log 27): it refuses field value
0 in `lwzux` and in the spelling `r0` as well. -/
def readRA : Token → Option RegNum
  | .reg r => if r = 0 then none else some r
  | _ => none

/-- R74, D25: the displacement field: a signed number in range, or a hexadecimal number that is the field's 16-bit pattern
(log 27). -/
def dispField (z : Int) (hex : Bool) : Option (BitVec 16) :=
  if -32768 ≤ z ∧ z ≤ 32767 then some (BitVec.ofInt 16 z)
  else if hex ∧ 0 ≤ z ∧ z ≤ 0xFFFF then some (BitVec.ofInt 16 z)
  else none

/-- R72: a line of pieces as an instruction; anything else is refused (R75). -/
def parseLine : List Token → Option Instr
  | [.mnemonic .lwz, .reg rt, .comma, .num z hex, .lparen, b, .rparen] =>
    match dispField z hex, readRA0 b with
    | some d, some ra => some (.lwz rt ra d)
    | _, _ => none
  | [.mnemonic .lwzu, .reg rt, .comma, .num z hex, .lparen, b, .rparen] =>
    match dispField z hex, readRA b with
    | some d, some ra => some (.lwzu rt ra d)
    | _, _ => none
  | [.mnemonic .lwzux, .reg rt, .comma, b, .comma, .reg rb] => (readRA b).map fun ra => .lwzux rt ra rb
  | [.mnemonic .lwzx, .reg rt, .comma, b, .comma, .reg rb] => (readRA0 b).map fun ra => .lwzx rt ra rb
  | _ => none

/-- R72 to R75: the instruction a text stands for, if an assembler accepts it. -/
def assemble (text : List Char) : Option Instr :=
  match tokenize [] text with
  | some tokens => parseLine tokens
  | none => none

end Sys2Proof.Machine
end

