-- ==== Sys2Proof/Machine/Run.lean ====
section
/-! DEFINITION. Runs with their marks (R9, R120) and the end of a run (R143). -/

namespace Sys2Proof.Machine

/-- R9: the state after one step, with the fault or refusal it ended in recorded. -/
def State.stepMarked (s : State) : State := s.record (step s)

/-- R143: the state after `n` steps. -/
def State.runMarked : Nat → State → State
  | 0, s => s
  | n + 1, s => State.runMarked n s.stepMarked

/-- R143: the run has ended: `pc` is just past the text and no mark is recorded. -/
def State.isFinal (s : State) : Bool := s.mark.isNone && decide (s.pc.toNat = textEnd s.text)

end Sys2Proof.Machine
end

