-- ==== Sys2Proof/Safety.lean ====
section
/-! DEFINITION. The launch premises of R142 by name, the four bytes a load sees, and the invariant of a running machine. -/

namespace Sys2Proof.Machine

open Sys2Proof.Config

/-- R142 `TextWellFormed`: the base is a multiple of 4, the end address fits below 0xFFFF_FFFC, and every word decodes to a
valid form. -/
def TextWellFormed (t : ProgramText) : Prop :=
  t.base.toNat % 4 = 0 ∧ textEnd t ≤ 0xFFFFFFFC ∧
    ∀ w ∈ t.words, ∃ i, decode w = .ok i ∧ i.wellFormed = true

/-- R142 `PcAtText`: `pc` is the address of a word of the text, or the address just past it. -/
def PcAtText (s : State) : Prop := ∃ k ≤ s.text.words.length, s.pc.toNat = s.text.base.toNat + 4 * k

/-- R142 `NoMark`. -/
def NoMark (s : State) : Prop := s.mark = none

/-- R142 `RegsGiven(S)`: the registers in `given`, and no others, have a value. -/
def RegsGiven (given : List RegNum) (s : State) : Prop := ∀ r : RegNum, s.x[r].isSome = true ↔ r ∈ given

/-- Every register holds a value, as at reset (log 1). -/
def AllRegsGiven (s : State) : Prop := ∀ r : RegNum, s.x[r].isSome = true

/-- R142 `MemGiven(M)`: exactly the ranges in `ranges` are admitted, and every byte of `bytes` has its value. -/
def MemGiven (ranges : List ByteRange) (bytes : Memory) (s : State) : Prop :=
  (∀ a, admitsByte s.admits a = admitsByte ranges a) ∧ ∀ c ∈ bytes, s.mem.read c.1 = some c.2

/-- R142 `SingleAgent`: no other agent makes a read see anything but memory (R51; log 19, 20, 21). -/
def SingleAgent (s : State) : Prop := s.oracle = []

/-- A 4-byte read at `a` is admitted, does not run past the top of the address space, and sees the bytes `b0` to `b3`, the
lowest address first (R42, R44, R45, R47). -/
def SeesBytes (s : State) (a : Addr) (b0 b1 b2 b3 : Byte) : Prop :=
  a ≤ 0xFFFFFFFC ∧
  (∀ k < 4, admitsByte s.admits (a.toNat + k) = true) ∧
  byteSeen s (eventOfByte a 0) a.toNat = some b0 ∧
  byteSeen s (eventOfByte a 1) (a.toNat + 1) = some b1 ∧
  byteSeen s (eventOfByte a 2) (a.toNat + 2) = some b2 ∧
  byteSeen s (eventOfByte a 3) (a.toNat + 3) = some b3

/-- What holds of a machine that is running: memory is in its canonical form, `pc` is a multiple of 4 (R23) and stands in the
text or just past it (R142), and no fault or refusal is recorded (R143). -/
def Running (s : State) : Prop :=
  s.mem.wf = true ∧ s.pc.toNat % 4 = 0 ∧ PcAtText s ∧ NoMark s

end Sys2Proof.Machine
end

