-- ==== Sys2Proof/Certificates/Slice0/Obligations.lean ====
section
/-! DEFINITION. The statements for the provers. `SeesBytes`, `Running` and the launch premises are in Sys2Proof/Safety.lean. -/

open Sys2Proof Sys2Proof.Machine Sys2Proof.Config

/-! ### Encoding and decoding -/

/-- R67: decoding an encoded instruction gives back the same instruction, every operand at every value. The invalid forms of
R69 decode too; their meanings refuse them. -/
def Obligations.EncodedInstructionDecodesBack : Prop := ∀ i : Instr, decode (encode i) = .ok i

/-- R54, R67: the same through the four bytes in memory order, with whatever follows them left over, and through the numbering
of spec/opcode_table.json. The byte order of instruction words is decision D7. -/
def Obligations.InstructionBytesDecodeBack : Prop :=
  ∀ (i : Instr) (rest : List Byte),
    decodeBytes (encodeBytes i ++ rest) = .ok (i, rest) ∧ decodeTableWord 32 (encode i).toNat = some i

/-- R67: encoding a decoded word gives back the same word: no bit of an accepted word is dropped. -/
def Obligations.DecodedWordEncodesBack : Prop := ∀ (w : Word) (i : Instr), decode w = .ok i → encode i = w

/-- R66: the rows of the opcode map: a word is the instruction exactly when `(w & mask) = match`, the match and mask say what
`OPCD`, `XO` and `Rc` are, and no word matches two rows. That bit 31 belongs to the X-form mask is the spec's decision D4. -/
def Obligations.DecoderFollowsTheOpcodeMap : Prop :=
  ∀ w : Word,
    ((w &&& 0xFC000000 = 0x80000000 ↔ ∃ rt ra d, decode w = .ok (.lwz rt ra d)) ∧
     (w &&& 0xFC000000 = 0x84000000 ↔ ∃ rt ra d, decode w = .ok (.lwzu rt ra d)) ∧
     (w &&& 0xFC0007FF = 0x7C00006E ↔ ∃ rt ra rb, decode w = .ok (.lwzux rt ra rb)) ∧
     (w &&& 0xFC0007FF = 0x7C00002E ↔ ∃ rt ra rb, decode w = .ok (.lwzx rt ra rb))) ∧
    ((w &&& 0xFC000000 = 0x80000000 ↔ fieldOpcd w = 32) ∧
     (w &&& 0xFC000000 = 0x84000000 ↔ fieldOpcd w = 33) ∧
     (w &&& 0xFC0007FF = 0x7C00006E ↔ fieldOpcd w = 31 ∧ fieldXo w = 55 ∧ fieldRc w = 0) ∧
     (w &&& 0xFC0007FF = 0x7C00002E ↔ fieldOpcd w = 31 ∧ fieldXo w = 23 ∧ fieldRc w = 0)) ∧
    ∀ m m' : Mnemonic, w &&& maskWord m = matchWord m → w &&& maskWord m' = matchWord m' → m = m'

/-- R67, R68, R70 (decisions D4 and D5): the decoder refuses a word with the reason `ReservedBitSet` exactly when it is an
X-form word of the family with bit 31 set, and with the reason `NotInScope` exactly when it is neither that nor one of the four
instructions; it has no other reason, and the reason records the word. -/
def Obligations.DecoderRefusesWithItsReason : Prop :=
  ∀ w : Word,
    (decode w = .error (.reservedBitSet w) ↔ w &&& 0xFC0007FF = 0x7C00006F ∨ w &&& 0xFC0007FF = 0x7C00002F) ∧
    (decode w = .error (.notInScope w) ↔
      w &&& 0xFC000000 ≠ 0x80000000 ∧ w &&& 0xFC000000 ≠ 0x84000000 ∧
      w &&& 0xFC0007FE ≠ 0x7C00006E ∧ w &&& 0xFC0007FE ≠ 0x7C00002E) ∧
    ∀ r, decode w = .error r → r = .reservedBitSet w ∨ r = .notInScope w

/-- Words written out from the bit pictures of R62 and R63 (vectors V3, V9, V16, V18, V20, V29 of 95_test_vectors.md section
2.1): a sanity statement. The refusals of the last two words are the spec's decisions D4 and D5 (R68, R70). -/
def Obligations.WordsFromTheSpecDecode : Prop :=
  decode 0b100000_11111_11111_1111111111111111 = .ok (.lwz 31 31 0xFFFF) ∧
  decode 0b100001_11111_11110_1111111111111111 = .ok (.lwzu 31 30 0xFFFF) ∧
  decode 0b011111_11111_11110_11101_0000110111_0 = .ok (.lwzux 31 30 29) ∧
  decode 0b011111_11111_11110_11101_0000010111_0 = .ok (.lwzx 31 30 29) ∧
  decode 0b011111_00101_00011_00100_0000010111_1 = .error (.reservedBitSet 0x7CA3202F) ∧
  decode 0b011111_00101_00011_00100_1000010111_0 = .error (.notInScope 0x7CA3242E)

/-- R61: each field is the stated bits of the word, counted from the least significant end, and the encoder places it there. -/
def Obligations.FieldsStandAtTheirBits : Prop :=
  (∀ w : Word,
    fieldOpcd w = (w.extractLsb' 26 6).toNat ∧ (fieldRt w).val = (w.extractLsb' 21 5).toNat ∧
    (fieldRa w).val = (w.extractLsb' 16 5).toNat ∧ fieldD w = w.extractLsb' 0 16 ∧
    (fieldRb w).val = (w.extractLsb' 11 5).toNat ∧ fieldXo w = (w.extractLsb' 1 10).toNat ∧
    fieldRc w = (w.extractLsb' 0 1).toNat) ∧
  (∀ (rt ra : RegNum) (d : BitVec 16),
    encode (.lwz rt ra d) = 32#6 ++ BitVec.ofNat 5 rt ++ BitVec.ofNat 5 ra ++ d ∧
    encode (.lwzu rt ra d) = 33#6 ++ BitVec.ofNat 5 rt ++ BitVec.ofNat 5 ra ++ d) ∧
  (∀ rt ra rb : RegNum,
    encode (.lwzux rt ra rb) = 31#6 ++ BitVec.ofNat 5 rt ++ BitVec.ofNat 5 ra ++ BitVec.ofNat 5 rb ++ 55#10 ++ 0#1 ∧
    encode (.lwzx rt ra rb) = 31#6 ++ BitVec.ofNat 5 rt ++ BitVec.ofNat 5 ra ++ BitVec.ofNat 5 rb ++ 23#10 ++ 0#1)

/-- R54 (decision D7): a program text given as bytes, each word's most significant byte first, is that list of words. -/
def Obligations.TextBytesAreItsWords : Prop := ∀ ws : List Word, wordsOfBytes (ws.flatMap bytesOfWord) = ws

/-! ### Operands and addresses -/

/-- R64: the displacement is the low 16 bits of the word, a two's-complement number from -32768 to 32767, sign-extended to 64
bits and neither scaled nor shifted. -/
def Obligations.DisplacementIsSignExtended : Prop :=
  (∀ w : Word, fieldD w = w.setWidth 16) ∧
  ∀ d : BitVec 16,
    (d.toNat < 0x8000 → (sext64 d).toNat = d.toNat) ∧
    (0x8000 ≤ d.toNat → (sext64 d).toNat = d.toNat + 0xFFFFFFFFFFFF0000) ∧
    (sext64 d).toInt = d.toInt ∧ -32768 ≤ d.toInt ∧ d.toInt ≤ 32767 ∧
    ∀ s : State, ∀ rt ra : RegNum, offsetOf s (.lwz rt ra d) = .ok (sext64 d) ∧ offsetOf s (.lwzu rt ra d) = .ok (sext64 d)

/-- R90, R98 (decision D1): the effective address is the sum of the low halves modulo 2^32; carries are dropped. -/
def Obligations.EffectiveAddressIsTheSumOfLowHalves : Prop :=
  ∀ base off : DWord, effAddr (addressSum base off) = base.setWidth 32 + off.setWidth 32

/-- R90, R98 (decision D1, vector V82): bits 63 to 32 of the registers reach neither the address nor the loaded value: with
any registers that agree in their low halves the same instruction loads the same value. That it uses up the same answers of the
oracle is the model's choice of their form (log 21). -/
def Obligations.HighHalvesDoNotReachTheAddress : Prop :=
  ∀ (i : Instr) (s t : State) (y : Vector (Option DWord) 32),
    (∀ r : RegNum, y[r].map (BitVec.setWidth 32) = s.x[r].map (BitVec.setWidth 32)) →
    exec i s = .next t →
    ∃ t', exec i { s with x := y } = .next t' ∧ t'.x[targetOf i] = t.x[targetOf i] ∧ t'.pc = t.pc ∧ t'.oracle = t.oracle

/-- R21, R65: no register is hardwired: every register, `r0` included, reads as last written; field value 0 is the literal
zero in the `RA` field of `lwz` and `lwzx` alone, which neither reads nor changes `r0`; in `lwzu` and `lwzux` it makes an
invalid form. The index is a register for every value of `RB`. -/
def Obligations.NoRegisterIsHardwired : Prop :=
  (∀ (s : State) (i j : RegNum) (v : DWord),
    readReg (s.writeReg i v) j = if j = i then .ok v else readReg s j) ∧
  (∀ (s : State) (rt ra rb : RegNum) (d : BitVec 16),
    baseOf s (.lwz rt ra d) = (if ra = 0 then .ok 0 else readReg s ra) ∧
    baseOf s (.lwzx rt ra rb) = (if ra = 0 then .ok 0 else readReg s ra) ∧
    baseOf s (.lwzu rt ra d) = readReg s ra ∧ baseOf s (.lwzux rt ra rb) = readReg s ra ∧
    offsetOf s (.lwzx rt ra rb) = readReg s rb ∧ offsetOf s (.lwzux rt ra rb) = readReg s rb) ∧
  (∀ (s t : State) (rt rb : RegNum) (d : BitVec 16), rt ≠ 0 →
    exec (.lwz rt 0 d) s = .next t ∨ exec (.lwzx rt 0 rb) s = .next t → t.x[(0 : RegNum)] = s.x[(0 : RegNum)]) ∧
  ∀ (rt rb : RegNum) (d : BitVec 16),
    (Instr.lwzu rt 0 d).wellFormed = false ∧ (Instr.lwzux rt 0 rb).wellFormed = false

/-- R22 (vector V83): a completed instruction depends on no register but those R22 lists (`regsRead`): with any registers that
agree on those, it completes and writes the same values to the registers it writes (`regsWritten`). -/
def Obligations.ResultDependsOnlyOnTheRegistersRead : Prop :=
  ∀ (i : Instr) (s t : State) (y : Vector (Option DWord) 32),
    (∀ r ∈ regsRead i, y[r] = s.x[r]) →
    exec i s = .next t →
    ∃ t', exec i { s with x := y } = .next t' ∧ (∀ r ∈ regsWritten i, t'.x[r] = t.x[r]) ∧ t'.pc = t.pc

/-! ### Memory -/

/-- R41: memory is big-endian: of the word a read answers, the byte at the lowest address is the most significant. Which read
event sees a byte is D10 in the model's form (log 21, 22); with a single agent every byte is the one in memory. -/
def Obligations.MemoryIsBigEndian : Prop :=
  ∀ (s : State) (a : Addr) (w : Word), memRead s a = .ok w →
    (∀ k < 4, byteSeen s (eventOfByte a k) (a.toNat + k) = some (w.extractLsb' (24 - 8 * k) 8)) ∧
    (SingleAgent s → ∀ k < 4, s.mem.read (a.toNat + k) = some (w.extractLsb' (24 - 8 * k) 8))

/-- R43: alignment stops no read and none of the four loads: whatever the address is modulo 4, `MemRead` answers the four
consecutive bytes starting at it, neither rounded nor rotated, and a valid form whose operands have values and whose four
bytes can be read completes and loads them. `effAddr` of the sum is the effective address of R90. `SeesBytes` names the bytes
the load's own read events see (log 21, 22). -/
def Obligations.AlignmentNeverStopsALoad : Prop :=
  (∀ (s : State) (a : Addr) (b0 b1 b2 b3 : Byte), SeesBytes s a b0 b1 b2 b3 →
    memRead s a = .ok (b0 ++ b1 ++ b2 ++ b3)) ∧
  ∀ (i : Instr) (s : State) (base off : DWord) (b0 b1 b2 b3 : Byte),
    i.wellFormed = true → s.pc ≠ 0xFFFFFFFC → baseOf s i = .ok base → offsetOf s i = .ok off →
    SeesBytes s (effAddr (addressSum base off)) b0 b1 b2 b3 →
    ∃ t, exec i s = .next t ∧ t.x[targetOf i] = some (0#32 ++ (b0 ++ b1 ++ b2 ++ b3))

/-- R47, R51 (decisions D10, D14): an aligned load is one read event and a misaligned one four, one a byte: byte `k` of the word
read is what event 0 sees when the address is a multiple of 4, and what event `k` sees otherwise. An event sees what its own
answer of the oracle gives a byte, and memory where it gives none. So a read depends on its own answers alone, and with a single
agent the two readings are the same. The oracle as a list of answers, taken in the order of rising addresses, is the model's
choice (log 21, 22). -/
def Obligations.ReadsDependOnTheirOwnReadEvents : Prop :=
  (∀ (s : State) (a : Addr) (w : Word), memRead s a = .ok w →
    (a.toNat % 4 = 0 → ∀ k < 4, byteSeen s 0 (a.toNat + k) = some (w.extractLsb' (24 - 8 * k) 8)) ∧
    (a.toNat % 4 ≠ 0 → ∀ k < 4, byteSeen s k (a.toNat + k) = some (w.extractLsb' (24 - 8 * k) 8))) ∧
  (∀ (s : State) (event addr : Nat),
    byteSeen s event addr = (Memory.read (s.oracle.getD event []) addr).or (s.mem.read addr)) ∧
  (∀ (s : State) (a : Addr) (o : List (List Host.Cell)),
    a.toNat % 4 = 0 → o.getD 0 [] = s.oracle.getD 0 [] → memRead { s with oracle := o } a = memRead s a) ∧
  (∀ (s : State) (a : Addr) (o : List (List Host.Cell)),
    (∀ k < 4, o.getD k [] = s.oracle.getD k []) → memRead { s with oracle := o } a = memRead s a) ∧
  ∀ (s : State) (event event' addr : Nat), SingleAgent s →
    byteSeen s event addr = s.mem.read addr ∧ byteSeen s event addr = byteSeen s event' addr

/-- R48 (decision D11): a load changes no memory, and with a single agent (an empty oracle, log 21) every later read answers
what it would have answered before. -/
def Obligations.ReadsAreRepeatable : Prop :=
  ∀ (i : Instr) (s t : State), SingleAgent s → exec i s = .next t →
    SingleAgent t ∧ t.mem = s.mem ∧ ∀ a, memRead t a = memRead s a

/-! ### The four instructions: result and completion -/

/-- R94: `lwz` completes with exactly this next state, for every operand and at every alignment, when its base has a value, the
four bytes at the effective address can be read, and `pc` is not the last word address (decision D6). The address is the low
half of the sum (decision D1). `RT = RA` and `RT = 0` are included. The answers of the oracle it uses up, one if aligned and
four if not, are D10 in the model's form (log 21, 22). -/
def Obligations.LwzCompletesWithTheLoadedWord : Prop :=
  ∀ (rt ra : RegNum) (d : BitVec 16) (s : State) (base : DWord) (b0 b1 b2 b3 : Byte),
    s.pc ≠ 0xFFFFFFFC →
    (if ra = 0 then base = 0 else s.x[ra] = some base) →
    SeesBytes s ((base + d.signExtend 64).setWidth 32) b0 b1 b2 b3 →
    exec (.lwz rt ra d) s = .next { s with
      x := s.x.set rt (some (0#32 ++ (b0 ++ b1 ++ b2 ++ b3)))
      pc := s.pc + 4
      oracle := s.oracle.drop (if (base + d.signExtend 64).toNat % 4 = 0 then 1 else 4) }

/-- R95: `lwzu` completes with exactly this next state. What it writes to `RA` is decision D2, in both of its modes; the address
is decision D1 and the bound on `pc` decision D6; the answers of the oracle it uses up, one if aligned and four if not, are D10
in the model's form (log 21, 22). -/
def Obligations.LwzuCompletesWithTheLoadedWordAndAddress : Prop :=
  ∀ (rt ra : RegNum) (d : BitVec 16) (s : State) (base : DWord) (b0 b1 b2 b3 : Byte),
    ra ≠ 0 → ra ≠ rt → s.pc ≠ 0xFFFFFFFC → s.x[ra] = some base →
    SeesBytes s ((base + d.signExtend 64).setWidth 32) b0 b1 b2 b3 →
    exec (.lwzu rt ra d) s = .next { s with
      x := (s.x.set rt (some (0#32 ++ (b0 ++ b1 ++ b2 ++ b3)))).set ra
        (some (if s.raUpdateMode = .low32 then ((base + d.signExtend 64).setWidth 32).setWidth 64
          else base + d.signExtend 64))
      pc := s.pc + 4
      oracle := s.oracle.drop (if (base + d.signExtend 64).toNat % 4 = 0 then 1 else 4) }

/-- R96: `lwzux` completes with exactly this next state; `RB` may be `r0`, `RA` or `RT`. What it writes to `RA` is decision D2,
in both of its modes; the address is decision D1 and the bound on `pc` decision D6; the answers of the oracle it uses up, one if
aligned and four if not, are D10 in the model's form (log 21, 22). -/
def Obligations.LwzuxCompletesWithTheLoadedWordAndAddress : Prop :=
  ∀ (rt ra rb : RegNum) (s : State) (base index : DWord) (b0 b1 b2 b3 : Byte),
    ra ≠ 0 → ra ≠ rt → s.pc ≠ 0xFFFFFFFC → s.x[ra] = some base → s.x[rb] = some index →
    SeesBytes s ((base + index).setWidth 32) b0 b1 b2 b3 →
    exec (.lwzux rt ra rb) s = .next { s with
      x := (s.x.set rt (some (0#32 ++ (b0 ++ b1 ++ b2 ++ b3)))).set ra
        (some (if s.raUpdateMode = .low32 then ((base + index).setWidth 32).setWidth 64 else base + index))
      pc := s.pc + 4
      oracle := s.oracle.drop (if (base + index).toNat % 4 = 0 then 1 else 4) }

/-- R97: `lwzx` completes with exactly this next state; `RT`, `RA` and `RB` may all be the same register, and `RB` may be
`r0`. The address is decision D1 and the bound on `pc` decision D6; the answers of the oracle it uses up, one if aligned and four
if not, are D10 in the model's form (log 21, 22). -/
def Obligations.LwzxCompletesWithTheLoadedWord : Prop :=
  ∀ (rt ra rb : RegNum) (s : State) (base index : DWord) (b0 b1 b2 b3 : Byte),
    s.pc ≠ 0xFFFFFFFC →
    (if ra = 0 then base = 0 else s.x[ra] = some base) → s.x[rb] = some index →
    SeesBytes s ((base + index).setWidth 32) b0 b1 b2 b3 →
    exec (.lwzx rt ra rb) s = .next { s with
      x := s.x.set rt (some (0#32 ++ (b0 ++ b1 ++ b2 ++ b3)))
      pc := s.pc + 4
      oracle := s.oracle.drop (if (base + index).toNat % 4 = 0 then 1 else 4) }

/-! ### What each instruction changes and leaves -/

/-- R91: every completed load reads `MemRead(EA, 4)` and replaces all 64 bits of its destination by the zero-extended word:
bits 31 to 0 are the word and bits 63 to 32 are 0. `effAddr` of the sum is the effective address of R90. -/
def Obligations.LoadedWordFillsTheDestination : Prop :=
  ∀ (i : Instr) (s t : State), exec i s = .next t →
    ∃ base off w v, baseOf s i = .ok base ∧ offsetOf s i = .ok off ∧
      memRead s (effAddr (addressSum base off)) = .ok w ∧
      t.x[targetOf i] = some v ∧ v.extractLsb' 0 32 = w ∧ v.extractLsb' 32 32 = 0

/-- The frame of `lwz` and `lwzx`, forms that store nothing (R22, R26, R27, R29): every register but the destination, every
byte of memory, the mark, the text, the admitted ranges and the update mode are unchanged; of the oracle only the answers to
the load's own read events are used up, one or four (D10; log 21, 22). -/
def Obligations.PlainLoadsChangeOnlyTheirDestination : Prop :=
  ∀ (rt ra rb : RegNum) (d : BitVec 16) (s t : State),
    exec (.lwz rt ra d) s = .next t ∨ exec (.lwzx rt ra rb) s = .next t →
    (∀ r : RegNum, r ≠ rt → t.x[r] = s.x[r]) ∧ (∀ a, t.mem.read a = s.mem.read a) ∧ t.mem = s.mem ∧
    t.mark = s.mark ∧ t.text = s.text ∧ t.admits = s.admits ∧ t.raUpdateMode = s.raUpdateMode ∧
    (t.oracle = s.oracle.drop 1 ∨ t.oracle = s.oracle.drop 4)

/-- The frame of `lwzu` and `lwzux`, forms that store nothing (R22, R26, R27, R29): the same, but for the destination and the
base register that the addressing mode updates. The answers used up are again D10 in the model's form (log 21, 22). -/
def Obligations.UpdateLoadsChangeOnlyDestinationAndBase : Prop :=
  ∀ (rt ra rb : RegNum) (d : BitVec 16) (s t : State),
    exec (.lwzu rt ra d) s = .next t ∨ exec (.lwzux rt ra rb) s = .next t →
    (∀ r : RegNum, r ≠ rt → r ≠ ra → t.x[r] = s.x[r]) ∧ (∀ a, t.mem.read a = s.mem.read a) ∧ t.mem = s.mem ∧
    t.mark = s.mark ∧ t.text = s.text ∧ t.admits = s.admits ∧ t.raUpdateMode = s.raUpdateMode ∧
    (t.oracle = s.oracle.drop 1 ∨ t.oracle = s.oracle.drop 4)

/-- R24: a completed instruction, and so a completed step, adds 4 to `pc`, whatever its operands; a step that faults or is
refused leaves `pc`. -/
def Obligations.CompletedStepAddsFourToPc : Prop :=
  (∀ (i : Instr) (s t : State), exec i s = .next t → t.pc = s.pc + 4) ∧
  (∀ s t : State, step s = .next t → t.pc = s.pc + 4) ∧
  ∀ s : State, (∀ t, step s ≠ .next t) → s.stepMarked.pc = s.pc

/-- R92 (decision D2, vectors V84, V85): after a completed update form the low half of `RA` is the effective address in both
modes; under `low32` the high half is 0, under `full64` the register is the whole sum. -/
def Obligations.UpdateFormsWriteTheAddressBack : Prop :=
  ∀ (rt ra rb : RegNum) (d : BitVec 16) (i : Instr) (s t : State),
    i = .lwzu rt ra d ∨ i = .lwzux rt ra rb → exec i s = .next t →
    ∃ base off v, baseOf s i = .ok base ∧ offsetOf s i = .ok off ∧ t.x[ra] = some v ∧
      v.extractLsb' 0 32 = (base + off).extractLsb' 0 32 ∧
      (s.raUpdateMode = .low32 → v.extractLsb' 32 32 = 0) ∧ (s.raUpdateMode = .full64 → v = base + off)

/-- Vector V89 (from R90): a displacement load and an indexed load whose index holds the sign-extended
displacement have the same outcome, fault and refusal names of a valid form included; so do their update forms. -/
def Obligations.DisplacementAndIndexLoadsAgree : Prop :=
  ∀ (rt ra rb : RegNum) (d : BitVec 16) (s : State), s.x[rb] = some (d.signExtend 64) →
    exec (.lwz rt ra d) s = exec (.lwzx rt ra rb) s ∧
    (ra ≠ 0 → ra ≠ rt → exec (.lwzu rt ra d) s = exec (.lwzux rt ra rb) s)

/-! ### Where an instruction stops -/

/-- R69 (decision D3): an update form with `RA = 0` or `RA = RT` is refused as `InvalidForm` in every state, with its word; no
other form is. -/
def Obligations.InvalidFormsAreRefused : Prop :=
  ∀ (i : Instr) (s : State) (w : Word),
    exec i s = .refused (.invalidForm w) ↔
      w = encode i ∧ ((∃ rt ra d, i = .lwzu rt ra d ∧ (ra = 0 ∨ ra = rt)) ∨
        ∃ rt ra rb, i = .lwzux rt ra rb ∧ (ra = 0 ∨ ra = rt))

/-- R93, R124 (decision D22, and D3, D6, D8, D9, D19 for the names): the checks of an instruction in their order, each with its
reason: the form, then `pc`, then the first source register without a value, then the top of the address space, then the
admitted bytes, then the lowest byte without a value that its read event sees (log 21, 22). -/
def Obligations.ChecksStopInTheirOrder : Prop :=
  ∀ (i : Instr) (s : State),
    (i.wellFormed = false → exec i s = .refused (.invalidForm (encode i))) ∧
    (i.wellFormed = true → s.pc = 0xFFFFFFFC → exec i s = .refused (.pcWrap s.pc)) ∧
    (i.wellFormed = true → s.pc ≠ 0xFFFFFFFC →
      (∀ r, (regsRead i).find? (fun r => s.x[r].isNone) = some r → exec i s = .fault (.unwrittenRegister r)) ∧
      ∀ base off, baseOf s i = .ok base → offsetOf s i = .ok off → ∀ ea : Addr, ea = (base + off).setWidth 32 →
        (0xFFFFFFFC < ea → exec i s = .fault (.loadWraps ea)) ∧
        (ea ≤ 0xFFFFFFFC → (∃ k < 4, admitsByte s.admits (ea.toNat + k) = false) →
          exec i s = .fault (.loadNotAdmitted ea)) ∧
        (ea ≤ 0xFFFFFFFC → (∀ k < 4, admitsByte s.admits (ea.toNat + k) = true) →
          ∀ k < 4, (∀ j < k, (byteSeen s (eventOfByte ea j) (ea.toNat + j)).isSome = true) →
            byteSeen s (eventOfByte ea k) (ea.toNat + k) = none →
            exec i s = .fault (.unwrittenMemory (ea + BitVec.ofNat 32 k))))

/-! ### Steps and runs -/

/-- A step runs the decoded instruction (R54, R67, R93): with no mark, when the word of the text at `pc` decodes to `i`, the
step is `exec i`. Nothing is added around it. -/
def Obligations.StepRunsTheDecodedInstruction : Prop :=
  ∀ (s : State) (k : Nat) (w : Word) (i : Instr),
    s.mark = none → s.pc.toNat % 4 = 0 → s.text.words[k]? = some w → s.pc.toNat = s.text.base.toNat + 4 * k →
    decode w = .ok i → step s = exec i s

/-- R54, R143 (decisions D6, D7, D21): where a step fetches: a misaligned `pc` is refused; a word of the text that does not
decode is refused with the decoder's reason; `pc` just past the text is the end of the run, which the model answers with its
own `endOfRun` (log 16); any other `pc` is refused. -/
def Obligations.FetchStopsWithItsReason : Prop :=
  ∀ s : State, s.mark = none →
    (s.pc.toNat % 4 ≠ 0 → step s = .refused (.pcMisaligned s.pc)) ∧
    (s.pc.toNat % 4 = 0 →
      (∀ k w, s.text.words[k]? = some w → s.pc.toNat = s.text.base.toNat + 4 * k →
        (decode w = .error (.reservedBitSet w) → step s = .refused (.reservedBitSet w)) ∧
        (decode w = .error (.notInScope w) → step s = .refused (.notInScope w))) ∧
      (s.pc.toNat = textEnd s.text → step s = .refused (.endOfRun s.pc)) ∧
      ((∀ k ≤ s.text.words.length, s.pc.toNat ≠ s.text.base.toNat + 4 * k) → step s = .refused (.pcOutsideText s.pc)))

/-- R55 (decision D7): the words fetched are those of the text, whatever memory holds, and no step changes the text. -/
def Obligations.TextIsApartFromMemory : Prop :=
  (∀ (s : State) (m : Memory), fetch { s with mem := m } = fetch s) ∧ ∀ s t : State, step s = .next t → t.text = s.text

/-- R9, R93 (decisions D16, D22): a step that faults or is refused changes nothing but the mark, which records how it
stopped; the end of a run (log 16) records nothing. -/
def Obligations.FailedStepChangesNothing : Prop :=
  ∀ s : State, (∀ t, step s ≠ .next t) →
    s.stepMarked = { s with mark := s.stepMarked.mark } ∧
    (s.stepMarked.mark = stopOf (step s) ∨ (s.stepMarked = s ∧ step s = .refused (.endOfRun s.pc)))

/-- R9, R120 (decision D16): a recorded mark is never cleared: every later step answers it and changes nothing (log 17). -/
def Obligations.RecordedMarkIsNeverCleared : Prop :=
  ∀ (s : State) (m : Mark), s.mark = some m →
    stopOf (step s) = some m ∧ (∀ t, step s ≠ .next t) ∧ ∀ n, s.runMarked n = s

/-- R5, R29, R32: no step changes memory or a parameter. R32 keeps the parameters, the oracle among them, out of the state: that
State holds them, and that a step uses up answers of the oracle, at most four, is the model's choice (log 7, 21, 22). -/
def Obligations.StepKeepsMemoryAndParameters : Prop :=
  ∀ s t : State, step s = .next t →
    t.mem = s.mem ∧ t.text = s.text ∧ t.admits = s.admits ∧ t.raUpdateMode = s.raUpdateMode ∧ t.mark = none ∧
    ∃ n ≤ 4, t.oracle = s.oracle.drop n

/-- R31 with the model's reset (log 1): a register that holds a value never loses it, and where all hold one no step stops on a
register without a value. -/
def Obligations.RegistersNeverLoseTheirValue : Prop :=
  (∀ s t : State, step s = .next t → ∀ r : RegNum, s.x[r].isSome = true → t.x[r].isSome = true) ∧
  ∀ s : State, AllRegsGiven s → s.mark = none → ∀ r, step s ≠ .fault (.unwrittenRegister r)

/-- The invariant of a running machine (R23, R32, R142): memory canonical (log 4), `pc` a multiple of 4 that stands in the text or just
past it, no mark. Every step that answers a next state keeps it. -/
def Obligations.StepKeepsRunning : Prop := ∀ s t : State, Running s → step s = .next t → Running t

/-- The machine at reset meets the invariant, and every register holds a value. The reset values of registers, `pc` and text
are the model's choice (log 1, 2). -/
def Obligations.ResetIsRunning : Prop := Running State.reset ∧ AllRegsGiven State.reset ∧ SingleAgent State.reset

/-- What reset leaves: no mark, no byte of memory with a value, nothing admitted (D13), and the defaults of R5 for the update
mode and the oracle. Registers 0, `pc` 0 and an empty text are the model's choice (log 1, 2). -/
def Obligations.ResetValues : Prop :=
  State.reset.mark = none ∧ (∀ a, State.reset.mem.read a = none) ∧ (∀ a, admitsByte State.reset.admits a = false) ∧
  State.reset.raUpdateMode = .low32 ∧ State.reset.oracle = [] ∧
  (∀ r : RegNum, State.reset.x[r] = some 0) ∧ State.reset.pc = 0 ∧ State.reset.text.words = []

/-- R142, R143 (decisions D19, D21): a run of a well-formed text from its base executes its words once each, in order: after
`k` steps without a mark `pc` stands at word `k` (or stays just past the last), the next step executes that word, the state is
final exactly when all words are done, and no mark is a refusal. That a step past the last word leaves the state as it is, final
and without a mark, is the model's choice (log 16). -/
def Obligations.WellFormedTextRunsOnceInOrder : Prop :=
  ∀ s : State, TextWellFormed s.text → NoMark s → s.pc = s.text.base → ∀ (k : Nat) (t : State), t = s.runMarked k →
    (t.mark = none → t.pc.toNat = s.text.base.toNat + 4 * min k s.text.words.length) ∧
    (∀ w, s.text.words[k]? = some w → t.mark = none → ∃ i, decode w = .ok i ∧ i.wellFormed = true ∧ step t = exec i t) ∧
    (t.isFinal = true ↔ t.mark = none ∧ s.text.words.length ≤ k) ∧
    ∀ m, t.mark = some m → ∃ f, m = .fault f

/-- R143 (decision D21) for the host's runs: from the base of a well-formed text, `k` steps can all complete only up to the
number of words, they then end at word `k`, the state after the last word is final, and no step up to there is refused. The refusal `endOfRun` of
a step past the last word is the model's own (log 16). -/
def Obligations.RunEndsAfterExactlyTheText : Prop :=
  ∀ s : State, TextWellFormed s.text → NoMark s → s.pc = s.text.base → ∀ k : Nat,
    (∀ t, Sys2Proof.core.run k s = .next t →
      k ≤ s.text.words.length ∧ t.pc.toNat = s.text.base.toNat + 4 * k ∧
      (t.isFinal = true ↔ k = s.text.words.length)) ∧
    ∀ r, Sys2Proof.core.run k s = .refused r → s.text.words.length < k ∧ ∃ pc, r = .endOfRun pc

/-- The model's launch of one word (log 3): the very next step runs it, with registers and memory as they were. -/
def Obligations.LaunchedWordRunsNext : Prop :=
  ∀ (s : State) (w : Word) (i : Instr), decode w = .ok i →
    step (s.withFetchWord 32 w.toNat) = exec i (s.withFetchWord 32 w.toNat) ∧
    (s.withFetchWord 32 w.toNat).x = s.x ∧ (s.withFetchWord 32 w.toNat).mem = s.mem ∧
    (s.withFetchWord 32 w.toNat).admits = s.admits ∧
    (s.pc.toNat % 4 = 0 → (s.withFetchWord 32 w.toNat).pc = s.pc)

/-! ### Assembler syntax -/

/-- R72 to R74: the spelling of every valid form assembles back to it. -/
def Obligations.AssembledSpellingReadsBack : Prop := ∀ i : Instr, i.wellFormed = true → assemble (asmText i) = some i

/-- R69, R73: whatever the text, an assembler never makes an update form with base field 0. R73 says so of `lwzu RT, d(0)` alone;
that the spelling `r0` and `lwzux` are refused as well is DEDUCED (log 27). -/
def Obligations.AssemblerRefusesZeroBaseUpdates : Prop :=
  ∀ (text : List Char) (rt rb : RegNum) (d : BitVec 16),
    assemble text ≠ some (.lwzu rt 0 d) ∧ assemble text ≠ some (.lwzux rt 0 rb)

/-- Lines written in the spec (R94 to R97, R73, S8a; log 27 for the last) and the words they stand for: a sanity statement. -/
def Obligations.AssemblerLinesFromTheSpec : Prop :=
  (assemble "lwz r4, 4(r3)".toList).map encode = some 0x80830004 ∧
  (assemble "lwzu r5, 4(r4)".toList).map encode = some 0x84A40004 ∧
  (assemble "lwzux r6, r3, r4".toList).map encode = some 0x7CC3206E ∧
  (assemble "lwzx r5, r3, r4".toList).map encode = some 0x7CA3202E ∧
  (assemble "lwz r3, 0x100(0)".toList).map encode = some 0x80600100 ∧
  (assemble "lwzx r8, 0, r3".toList).map encode = some 0x7D00182E ∧
  assemble "lwzu r3, 8(0)".toList = none ∧
  (assemble "lwz r3, 0x8000(0)".toList).map encode = some 0x80608000
end

