-- ==== Sys2Proof/Laws/Decode.lean ====
section
/-! SUPPORT. The bits of fields and of placed register numbers. -/

namespace Sys2Proof

/-- R61: a field is a remainder of a quotient. -/
theorem ibm_eq_div_mod (w : Word) (a b : Nat) : ibm w a b = w.toNat / 2 ^ (31 - b) % 2 ^ (b - a + 1) := by
  simp only [ibm, Nat.and_two_pow_sub_one_eq_mod, Nat.shiftRight_eq_div_pow]

/-- R61: bit `k` of a field is bit `31 - b + k` of the word. -/
theorem ibm_testBit (w : Word) (a b k : Nat) :
    (ibm w a b).testBit k = (decide (k < b - a + 1) && w.getLsbD (31 - b + k)) := by
  rw [ibm_eq_div_mod, Nat.testBit_mod_two_pow, Nat.testBit_div_two_pow, BitVec.testBit_toNat, Nat.add_comm k]

theorem placeReg_getLsbD (r : RegNum) (n k : Nat) :
    (placeReg r n).getLsbD k = (decide (k < 32) && !decide (k < n) && r.val.testBit (k - n)) := by
  simp only [placeReg, BitVec.getLsbD_shiftLeft, BitVec.getLsbD_ofNat]
  by_cases h : k < 32
  · simp [h, show k - n < 32 by omega]
  · simp [h]

/-- A register number has five bits. -/
theorem regNum_testBit (r : RegNum) (k : Nat) (h : 5 ≤ k) : r.val.testBit k = false :=
  Nat.testBit_lt_two_pow (lt_of_lt_of_le r.isLt (by
    calc 32 = 2 ^ 5 := by norm_num
      _ ≤ 2 ^ k := Nat.pow_le_pow_right (by norm_num) h))

/-- A word whose bits are 0 wherever the mask's are not is cleared by the mask. -/
theorem and_mask_eq_zero (v m : Word) (h : ∀ k < 32, m.getLsbD k = true → v.getLsbD k = false) : v &&& m = 0 := by
  apply BitVec.eq_of_getLsbD_eq
  intro k hk
  rw [BitVec.getLsbD_and]
  cases hm : m.getLsbD k with
  | false => simp
  | true => simp [h k hk hm]

theorem or_and_distrib (a b c : Word) : (a ||| b) &&& c = (a &&& c) ||| (b &&& c) := by
  apply BitVec.eq_of_getLsbD_eq
  intro k hk
  simp [Bool.and_or_distrib_right]

/-- R67: a D-form word as a number. -/
theorem encodeD_toNat (m : Mnemonic) (op : Nat) (hm : matchWord m = BitVec.ofNat 32 (op * 2 ^ 26)) (ho : op < 64)
    (rt ra : RegNum) (d : BitVec 16) :
    (encodeD m rt ra d).toNat = op * 2 ^ 26 + rt.val * 2 ^ 21 + ra.val * 2 ^ 16 + d.toNat := by
  have hrt := rt.isLt
  have hra := ra.isLt
  have hd := d.isLt
  unfold encodeD placeReg
  rw [hm]
  simp only [BitVec.toNat_or, BitVec.toNat_shiftLeft, BitVec.toNat_ofNat, BitVec.toNat_setWidth, Nat.shiftLeft_eq]
  rw [Nat.mod_eq_of_lt (by omega : op * 2 ^ 26 < 2 ^ 32), Nat.mod_eq_of_lt (by omega : rt.val < 2 ^ 32),
    Nat.mod_eq_of_lt (by omega : ra.val < 2 ^ 32), Nat.mod_eq_of_lt (by omega : d.toNat < 2 ^ 32),
    Nat.mod_eq_of_lt (by omega : rt.val * 2 ^ 21 < 2 ^ 32), Nat.mod_eq_of_lt (by omega : ra.val * 2 ^ 16 < 2 ^ 32)]
  rw [mul_comm op, ← Nat.two_pow_add_eq_or_of_lt (by omega : rt.val * 2 ^ 21 < 2 ^ 26)]
  rw [show 2 ^ 26 * op + rt.val * 2 ^ 21 = 2 ^ 21 * (32 * op + rt.val) by ring,
    ← Nat.two_pow_add_eq_or_of_lt (by omega : ra.val * 2 ^ 16 < 2 ^ 21)]
  rw [show 2 ^ 21 * (32 * op + rt.val) + ra.val * 2 ^ 16 = 2 ^ 16 * (32 * (32 * op + rt.val) + ra.val) by ring,
    ← Nat.two_pow_add_eq_or_of_lt (by omega : d.toNat < 2 ^ 16)]

/-- R67: an X-form word as a number. -/
theorem encodeX_toNat (m : Mnemonic) (xo : Nat) (hm : matchWord m = BitVec.ofNat 32 (31 * 2 ^ 26 + xo * 2))
    (ho : xo < 1024) (rt ra rb : RegNum) :
    (encodeX m rt ra rb).toNat = 31 * 2 ^ 26 + rt.val * 2 ^ 21 + ra.val * 2 ^ 16 + rb.val * 2 ^ 11 + xo * 2 := by
  have hrt := rt.isLt
  have hra := ra.isLt
  have hrb := rb.isLt
  have hsplit : (BitVec.ofNat 32 (31 * 2 ^ 26 + xo * 2) : Word) = BitVec.ofNat 32 (31 * 2 ^ 26) ||| BitVec.ofNat 32 (xo * 2) := by
    apply BitVec.eq_of_toNat_eq
    simp only [BitVec.toNat_or, BitVec.toNat_ofNat]
    rw [Nat.mod_eq_of_lt (by omega), Nat.mod_eq_of_lt (by omega), Nat.mod_eq_of_lt (by omega), mul_comm 31,
      ← Nat.two_pow_add_eq_or_of_lt (by omega : xo * 2 < 2 ^ 26)]
  have hmove : ∀ a b c d e : Word, a ||| b ||| c ||| d ||| e = a ||| c ||| d ||| e ||| b := by
    intro a b c d e
    apply BitVec.eq_of_getLsbD_eq
    intro i _
    simp only [BitVec.getLsbD_or]
    cases a.getLsbD i <;> cases b.getLsbD i <;> cases c.getLsbD i <;> cases d.getLsbD i <;> cases e.getLsbD i <;> rfl
  unfold encodeX placeReg
  rw [hm, hsplit, hmove]
  simp only [BitVec.toNat_or, BitVec.toNat_shiftLeft, BitVec.toNat_ofNat, Nat.shiftLeft_eq]
  rw [Nat.mod_eq_of_lt (by omega : 31 * 2 ^ 26 < 2 ^ 32), Nat.mod_eq_of_lt (by omega : rt.val < 2 ^ 32),
    Nat.mod_eq_of_lt (by omega : ra.val < 2 ^ 32), Nat.mod_eq_of_lt (by omega : rb.val < 2 ^ 32),
    Nat.mod_eq_of_lt (by omega : rt.val * 2 ^ 21 < 2 ^ 32), Nat.mod_eq_of_lt (by omega : ra.val * 2 ^ 16 < 2 ^ 32),
    Nat.mod_eq_of_lt (by omega : rb.val * 2 ^ 11 < 2 ^ 32), Nat.mod_eq_of_lt (by omega : xo * 2 < 2 ^ 32)]
  rw [mul_comm 31, ← Nat.two_pow_add_eq_or_of_lt (by omega : rt.val * 2 ^ 21 < 2 ^ 26)]
  rw [show 2 ^ 26 * 31 + rt.val * 2 ^ 21 = 2 ^ 21 * (32 * 31 + rt.val) by ring,
    ← Nat.two_pow_add_eq_or_of_lt (by omega : ra.val * 2 ^ 16 < 2 ^ 21)]
  rw [show 2 ^ 21 * (32 * 31 + rt.val) + ra.val * 2 ^ 16 = 2 ^ 16 * (32 * (32 * 31 + rt.val) + ra.val) by ring,
    ← Nat.two_pow_add_eq_or_of_lt (by omega : rb.val * 2 ^ 11 < 2 ^ 16)]
  rw [show 2 ^ 16 * (32 * (32 * 31 + rt.val) + ra.val) + rb.val * 2 ^ 11 =
      2 ^ 11 * (32 * (32 * (32 * 31 + rt.val) + ra.val) + rb.val) by ring,
    ← Nat.two_pow_add_eq_or_of_lt (by omega : xo * 2 < 2 ^ 11)]

end Sys2Proof
end

