-- ==== Sys2Proof/Laws/State.lean ====
section
/-! SUPPORT. What each update of the state does to each field, so that no proof unfolds a record update. -/

namespace Sys2Proof.Machine

/-! ### `writeReg` -/

@[simp] theorem State.writeReg_x (s : State) (i : RegNum) (v : DWord) (j : Nat) (h : j < 32) :
    (s.writeReg i v).x[j] = if i.val = j then some v else s.x[j] := by
  simp [State.writeReg, Vector.getElem_set]

@[simp] theorem State.writeReg_pc (s : State) (i : RegNum) (v : DWord) : (s.writeReg i v).pc = s.pc := rfl
@[simp] theorem State.writeReg_mem (s : State) (i : RegNum) (v : DWord) : (s.writeReg i v).mem = s.mem := rfl
@[simp] theorem State.writeReg_mark (s : State) (i : RegNum) (v : DWord) : (s.writeReg i v).mark = s.mark := rfl
@[simp] theorem State.writeReg_text (s : State) (i : RegNum) (v : DWord) : (s.writeReg i v).text = s.text := rfl
@[simp] theorem State.writeReg_admits (s : State) (i : RegNum) (v : DWord) : (s.writeReg i v).admits = s.admits := rfl
@[simp] theorem State.writeReg_raUpdateMode (s : State) (i : RegNum) (v : DWord) :
    (s.writeReg i v).raUpdateMode = s.raUpdateMode := rfl
@[simp] theorem State.writeReg_oracle (s : State) (i : RegNum) (v : DWord) : (s.writeReg i v).oracle = s.oracle := rfl

/-! ### `advancePc` -/

@[simp] theorem State.advancePc_x (s : State) : s.advancePc.x = s.x := rfl
@[simp] theorem State.advancePc_pc (s : State) : s.advancePc.pc = s.pc + 4 := rfl
@[simp] theorem State.advancePc_mem (s : State) : s.advancePc.mem = s.mem := rfl
@[simp] theorem State.advancePc_mark (s : State) : s.advancePc.mark = s.mark := rfl
@[simp] theorem State.advancePc_text (s : State) : s.advancePc.text = s.text := rfl
@[simp] theorem State.advancePc_admits (s : State) : s.advancePc.admits = s.admits := rfl
@[simp] theorem State.advancePc_raUpdateMode (s : State) : s.advancePc.raUpdateMode = s.raUpdateMode := rfl
@[simp] theorem State.advancePc_oracle (s : State) : s.advancePc.oracle = s.oracle := rfl

/-! ### `afterRead` -/

@[simp] theorem State.afterRead_x (s : State) (a : Addr) : (s.afterRead a).x = s.x := rfl
@[simp] theorem State.afterRead_pc (s : State) (a : Addr) : (s.afterRead a).pc = s.pc := rfl
@[simp] theorem State.afterRead_mem (s : State) (a : Addr) : (s.afterRead a).mem = s.mem := rfl
@[simp] theorem State.afterRead_mark (s : State) (a : Addr) : (s.afterRead a).mark = s.mark := rfl
@[simp] theorem State.afterRead_text (s : State) (a : Addr) : (s.afterRead a).text = s.text := rfl
@[simp] theorem State.afterRead_admits (s : State) (a : Addr) : (s.afterRead a).admits = s.admits := rfl
@[simp] theorem State.afterRead_raUpdateMode (s : State) (a : Addr) :
    (s.afterRead a).raUpdateMode = s.raUpdateMode := rfl
@[simp] theorem State.afterRead_oracle (s : State) (a : Addr) :
    (s.afterRead a).oracle = s.oracle.drop (readEvents a) := rfl

/-! ### `record` -/

@[simp] theorem State.record_next (s t : State) : s.record (.next t) = t := rfl
@[simp] theorem State.record_fault (s : State) (f : Fault) :
    s.record (.fault f) = { s with mark := some (.fault f) } := rfl
@[simp] theorem State.record_endOfRun (s : State) (pc : Addr) : s.record (.refused (.endOfRun pc)) = s := rfl

theorem State.record_refused (s : State) (r : Refusal) :
    s.record (.refused r) = s ∨ s.record (.refused r) = { s with mark := some (.refused r) } := by
  cases r <;> simp [State.record]

/-- Recording an outcome that is not a next state leaves every field but the mark. -/
theorem State.record_stop (s : State) (r : Result) (h : nextOf r = none) :
    s.record r = { s with mark := (s.record r).mark } := by
  cases r with
  | next t => simp [nextOf] at h
  | fault f => rfl
  | refused r => cases r <;> rfl

/-! ### Reading an outcome -/

theorem nextOf_eq_some_iff (r : Result) (t : State) : nextOf r = some t ↔ r = .next t := by
  cases r <;> simp [nextOf]

theorem exists_next_of_isSome {r : Result} (h : (nextOf r).isSome = true) : ∃ t, r = .next t := by
  cases r with
  | next t => exact ⟨t, rfl⟩
  | fault f => simp [nextOf] at h
  | refused r => simp [nextOf] at h

theorem ne_next_of_isNone {r : Result} (h : (nextOf r).isNone = true) (t : State) : r ≠ .next t := by
  rintro rfl
  simp [nextOf] at h

theorem stopOf_fault_iff (r : Result) (f : Fault) : stopOf r = some (.fault f) ↔ r = .fault f := by
  cases r <;> simp [stopOf]

theorem stopOf_refused_iff (r : Result) (q : Refusal) : stopOf r = some (.refused q) ↔ r = .refused q := by
  cases r <;> simp [stopOf]

/-! ### `withFetchWord` -/

@[simp] theorem State.withFetchWord_x (s : State) (n w : Nat) : (s.withFetchWord n w).x = s.x := rfl
@[simp] theorem State.withFetchWord_mem (s : State) (n w : Nat) : (s.withFetchWord n w).mem = s.mem := rfl
@[simp] theorem State.withFetchWord_mark (s : State) (n w : Nat) : (s.withFetchWord n w).mark = none := rfl
@[simp] theorem State.withFetchWord_pc (s : State) (n w : Nat) : (s.withFetchWord n w).pc = alignPc s.pc := rfl
@[simp] theorem State.withFetchWord_admits (s : State) (n w : Nat) : (s.withFetchWord n w).admits = s.admits := rfl
@[simp] theorem State.withFetchWord_raUpdateMode (s : State) (n w : Nat) :
    (s.withFetchWord n w).raUpdateMode = s.raUpdateMode := rfl
@[simp] theorem State.withFetchWord_oracle (s : State) (n w : Nat) : (s.withFetchWord n w).oracle = s.oracle := rfl

end Sys2Proof.Machine
end

