-- ==== Sys2Proof/Laws/Ops.lean ====
section
/-! SUPPORT. One lemma per shared operation: what registers, memory, `MemRead` and the fetch can answer. -/

namespace Sys2Proof.Machine

open Sys2Proof.Config

/-! ### Registers -/

theorem readReg_ok_iff (s : State) (i : RegNum) (v : DWord) : readReg s i = .ok v ↔ s.x[i] = some v := by
  unfold readReg
  split <;> rename_i h <;> simp [h]

theorem readReg_error_iff (s : State) (i : RegNum) (f : Fault) :
    readReg s i = .error f ↔ s.x[i] = none ∧ f = .unwrittenRegister i := by
  unfold readReg
  split <;> rename_i h <;> simp [h, eq_comm]

theorem readReg_writeReg (s : State) (i j : RegNum) (v : DWord) :
    readReg (s.writeReg i v) j = if i = j then .ok v else readReg s j := by
  by_cases h : i = j
  · subst h; simp [readReg]
  · have h' : ¬ i.val = j.val := fun e => h (Fin.ext e)
    simp [readReg, h, h']

/-! ### The memory list -/

/-- The head of a canonical memory lies below everything after it. -/
theorem Memory.wf_tail {c : Host.Cell} {m : Memory} (h : Memory.wf (c :: m) = true) : Memory.wf m = true := by
  cases m with
  | nil => rfl
  | cons d m => simp [Memory.wf] at h; exact h.2

theorem Memory.wf_head_lt {a : Nat} {b : Byte} {m : Memory} (h : Memory.wf ((a, b) :: m) = true) : a < 2 ^ 32 := by
  induction m generalizing a b with
  | nil => simpa [Memory.wf] using h
  | cons d m ih =>
    obtain ⟨a', b'⟩ := d
    simp only [Memory.wf, Bool.and_eq_true, decide_eq_true_eq] at h
    exact lt_trans h.1 (ih h.2)

theorem Memory.wf_cons {a : Nat} {b : Byte} {m : Memory} (ha : a < 2 ^ 32) (hm : Memory.wf m = true)
    (hlt : ∀ c ∈ m, a < c.1) : Memory.wf ((a, b) :: m) = true := by
  cases m with
  | nil => simpa [Memory.wf] using ha
  | cons d m =>
    obtain ⟨a', b'⟩ := d
    have := hlt (a', b') (by simp)
    simp only [Memory.wf, Bool.and_eq_true, decide_eq_true_eq]
    exact ⟨this, hm⟩

theorem Memory.wf_lt {a : Nat} {b : Byte} {m : Memory} (h : Memory.wf ((a, b) :: m) = true) : ∀ c ∈ m, a < c.1 := by
  induction m generalizing a b with
  | nil => simp
  | cons d m ih =>
    obtain ⟨a', b'⟩ := d
    simp only [Memory.wf, Bool.and_eq_true, decide_eq_true_eq] at h
    intro c hc
    rcases List.mem_cons.mp hc with rfl | hc
    · exact h.1
    · exact lt_trans h.1 (ih h.2 c hc)

/-- The addresses after a write are the old ones and the written one. -/
theorem Memory.write_mem {m : Memory} {addr : Nat} {v : Byte} :
    ∀ c ∈ m.write addr v, c.1 = addr ∨ ∃ d ∈ m, d.1 = c.1 := by
  induction m with
  | nil => intro c hc; simp [Memory.write] at hc; exact .inl (by rw [hc])
  | cons d m ih =>
    obtain ⟨a, b⟩ := d
    intro c hc
    unfold Memory.write at hc
    split at hc
    · rcases List.mem_cons.mp hc with rfl | hc
      · exact .inl rfl
      · exact .inr ⟨c, hc, rfl⟩
    · split at hc
      · rcases List.mem_cons.mp hc with rfl | hc
        · exact .inl rfl
        · exact .inr ⟨c, List.mem_cons_of_mem _ hc, rfl⟩
      · rcases List.mem_cons.mp hc with rfl | hc
        · exact .inr ⟨(a, b), by simp, rfl⟩
        · rcases ih c hc with h | ⟨d, hd, e⟩
          · exact .inl h
          · exact .inr ⟨d, List.mem_cons_of_mem _ hd, e⟩

/-- A write keeps the canonical form. -/
theorem Memory.write_wf {m : Memory} {addr : Nat} {v : Byte} (ha : addr < 2 ^ 32) (h : m.wf = true) :
    (m.write addr v).wf = true := by
  induction m with
  | nil => simpa [Memory.write, Memory.wf] using ha
  | cons d m ih =>
    obtain ⟨a, b⟩ := d
    unfold Memory.write
    split
    · rename_i hlt
      refine Memory.wf_cons ha h fun c hc => ?_
      rcases List.mem_cons.mp hc with rfl | hc
      · exact hlt
      · exact lt_trans hlt (Memory.wf_lt h c hc)
    · split
      · rename_i heq
        subst heq
        exact Memory.wf_cons ha (Memory.wf_tail h) (Memory.wf_lt h)
      · rename_i hnlt hne
        refine Memory.wf_cons (Memory.wf_head_lt h) (ih (Memory.wf_tail h)) fun c hc => ?_
        rcases Memory.write_mem c hc with e | ⟨d, hd, e⟩
        · omega
        · have := Memory.wf_lt h d hd; omega

theorem Memory.writeBytes_wf {m : Memory} {addr : Nat} {bs : List Byte} (ha : addr + bs.length ≤ 2 ^ 32)
    (h : m.wf = true) : (m.writeBytes addr bs).wf = true := by
  induction bs generalizing m addr with
  | nil => exact h
  | cons b bs ih =>
    simp only [List.length_cons] at ha
    exact ih (by omega) (Memory.write_wf (by omega) h)

/-- Below the first listed address no byte holds a value. -/
theorem Memory.read_none_of_lt {m : Memory} {addr : Nat} (h : ∀ c ∈ m, addr < c.1) : m.read addr = none := by
  induction m with
  | nil => rfl
  | cons d m ih =>
    obtain ⟨a, b⟩ := d
    have := h (a, b) (by simp)
    have hne : ¬ a = addr := by simp at this; omega
    simp only [Memory.read, hne, if_false]
    exact ih fun c hc => h c (List.mem_cons_of_mem _ hc)

/-- A read after a write to the same address gives the value written, and any other address reads as before. -/
theorem Memory.read_write {m : Memory} {addr : Nat} {v : Byte} (h : m.wf = true) (addr' : Nat) :
    (m.write addr v).read addr' = if addr' = addr then some v else m.read addr' := by
  induction m with
  | nil => simp [Memory.write, Memory.read, eq_comm]
  | cons d m ih =>
    obtain ⟨a, b⟩ := d
    unfold Memory.write
    split
    · by_cases e : addr' = addr
      · simp [Memory.read, e]
      · simp [Memory.read, e, Ne.symm e]
    · split
      · rename_i heq
        subst heq
        by_cases e : addr' = addr
        · simp [Memory.read, e]
        · simp [Memory.read, e, Ne.symm e]
      · rename_i hne
        simp only [Memory.read, ih (Memory.wf_tail h)]
        by_cases ea : a = addr'
        · have : ¬ addr' = addr := by omega
          simp [ea, this]
        · simp [ea]

theorem reset_mem_wf : State.reset.mem.wf = true := rfl

/-! ### `MemRead` -/

theorem admitsBytes_iff (ranges : List ByteRange) (addr n : Nat) :
    admitsBytes ranges addr n = true ↔ ∀ k < n, admitsByte ranges (addr + k) = true := by
  simp [admitsBytes]

theorem loadByte_ok_iff (s : State) (a : Addr) (k : Nat) (b : Byte) :
    loadByte s a k = .ok b ↔ byteSeen s (eventOfByte a k) (a.toNat + k) = some b := by
  unfold loadByte
  split <;> rename_i h <;> simp [h]

theorem loadByte_error_iff (s : State) (a : Addr) (k : Nat) (f : Fault) :
    loadByte s a k = .error f ↔
      byteSeen s (eventOfByte a k) (a.toNat + k) = none ∧ f = .unwrittenMemory (a + BitVec.ofNat 32 k) := by
  unfold loadByte
  split <;> rename_i h <;> simp [h, eq_comm]

theorem loadWord_ok_iff (s : State) (a : Addr) (w : Word) :
    loadWord s a = .ok w ↔ ∃ b0 b1 b2 b3, loadByte s a 0 = .ok b0 ∧ loadByte s a 1 = .ok b1 ∧
      loadByte s a 2 = .ok b2 ∧ loadByte s a 3 = .ok b3 ∧ w = wordOfBytes b0 b1 b2 b3 := by
  unfold loadWord
  constructor
  · intro h
    split at h <;> simp_all
  · rintro ⟨b0, b1, b2, b3, h0, h1, h2, h3, rfl⟩
    simp [h0, h1, h2, h3]

/-- `MemRead` completes exactly when the four bytes are seen, and assembles them big-endian. -/
theorem memRead_ok_iff (s : State) (a : Addr) (w : Word) :
    memRead s a = .ok w ↔ ∃ b0 b1 b2 b3, SeesBytes s a b0 b1 b2 b3 ∧ w = wordOfBytes b0 b1 b2 b3 := by
  unfold memRead SeesBytes
  have hle : ¬ lastWordAddr < a ↔ a ≤ 0xFFFFFFFC := by simp [lastWordAddr]
  by_cases h1 : lastWordAddr < a
  · have hgt : ¬ a ≤ 0xFFFFFFFC := fun h => hle.mpr h h1
    constructor
    · intro h; simp [h1] at h
    · rintro ⟨b0, b1, b2, b3, ⟨h, -⟩, -⟩; exact absurd h hgt
  · have h1' := hle.mp h1
    simp only [h1, if_false, h1', true_and]
    by_cases h2 : admitsBytes s.admits a.toNat 4 = true
    · have h2' := (admitsBytes_iff _ _ _).mp h2
      simp only [h2, if_true, loadWord_ok_iff, loadByte_ok_iff, Nat.add_zero]
      constructor
      · rintro ⟨b0, b1, b2, b3, e0, e1, e2, e3, rfl⟩
        exact ⟨b0, b1, b2, b3, ⟨h2', e0, e1, e2, e3⟩, rfl⟩
      · rintro ⟨b0, b1, b2, b3, ⟨-, e0, e1, e2, e3⟩, rfl⟩
        exact ⟨b0, b1, b2, b3, e0, e1, e2, e3, rfl⟩
    · have h2' : ¬ ∀ k < 4, admitsByte s.admits (a.toNat + k) = true := fun h => h2 ((admitsBytes_iff _ _ _).mpr h)
      simp [h2, h2']

/-- The four bytes one after the other are the word R42 assembles. -/
theorem wordOfBytes_eq_append (b0 b1 b2 b3 : Byte) : wordOfBytes b0 b1 b2 b3 = b0 ++ b1 ++ b2 ++ b3 := by
  apply BitVec.eq_of_getLsbD_eq
  intro i hi
  simp only [wordOfBytes, BitVec.getLsbD_or, BitVec.getLsbD_shiftLeft, BitVec.getLsbD_setWidth, BitVec.getLsbD_append]
  by_cases h3 : i < 8
  · simp [h3, show i < 16 by omega, show i < 24 by omega, hi]
  · by_cases h2 : i < 16
    · have : b3.getLsbD i = false := BitVec.getLsbD_of_ge b3 i (by omega)
      simp [h3, h2, show i < 24 by omega, hi, this, show i - 8 < 8 by omega, show i - 8 < 32 by omega]
    · by_cases h1 : i < 24
      · have e3 : b3.getLsbD i = false := BitVec.getLsbD_of_ge b3 i (by omega)
        have e2 : b2.getLsbD (i - 8) = false := BitVec.getLsbD_of_ge b2 (i - 8) (by omega)
        simp [h3, h2, h1, hi, e3, e2, show i - 16 < 32 by omega, Nat.sub_sub, show ¬ i - 8 < 8 by omega,
          show i - 16 < 8 by omega]
      · have e3 : b3.getLsbD i = false := BitVec.getLsbD_of_ge b3 i (by omega)
        have e2 : b2.getLsbD (i - 8) = false := BitVec.getLsbD_of_ge b2 (i - 8) (by omega)
        have e1 : b1.getLsbD (i - 16) = false := BitVec.getLsbD_of_ge b1 (i - 16) (by omega)
        simp [h3, h2, h1, hi, e3, e2, e1, show i - 24 < 32 by omega, Nat.sub_sub, show ¬ i - 8 < 8 by omega,
          show ¬ i - 16 < 8 by omega]

/-- A read that sees four bytes answers them, the first the most significant, at any alignment. -/
theorem memRead_of_seesBytes {s : State} {a : Addr} {b0 b1 b2 b3 : Byte} (h : SeesBytes s a b0 b1 b2 b3) :
    memRead s a = .ok (b0 ++ b1 ++ b2 ++ b3) :=
  (memRead_ok_iff s a _).mpr ⟨b0, b1, b2, b3, h, (wordOfBytes_eq_append b0 b1 b2 b3).symm⟩

/-- With no other agent a read sees memory. -/
@[simp] theorem byteSeen_singleAgent {s : State} (h : s.oracle = []) (event addr : Nat) :
    byteSeen s event addr = s.mem.read addr := by
  simp [byteSeen, h, Memory.read]

/-! ### Fetching -/

theorem fetch_ok_iff (s : State) (w : Word) :
    fetch s = .ok w ↔ s.pc.toNat % 4 = 0 ∧ wordAt s.text s.pc = some w := by
  unfold fetch
  by_cases h : s.pc.toNat % 4 = 0
  · simp only [h, ne_eq, not_true_eq_false, if_false, true_and]
    split
    · rename_i h'; simp [h']
    · rename_i h'; split <;> simp [h']
  · simp [h]

theorem wordAt_eq_some_iff (t : ProgramText) (pc : Addr) (w : Word) :
    wordAt t pc = some w ↔ ∃ k, t.words[k]? = some w ∧ pc.toNat = t.base.toNat + 4 * k := by
  unfold wordAt
  constructor
  · intro h
    split at h
    · rename_i hc
      exact ⟨_, h, by omega⟩
    · simp at h
  · rintro ⟨k, hk, he⟩
    have h1 : t.base.toNat ≤ pc.toNat ∧ (pc.toNat - t.base.toNat) % 4 = 0 := by omega
    have h2 : (pc.toNat - t.base.toNat) / 4 = k := by omega
    simp [h1, h2, hk]

end Sys2Proof.Machine
end

