-- ==== Sys2Proof/Laws/LoadWord.lean ====
section
/-! SUPPORT. What a completed load does to each field, and the inversion of `load`, `exec` and `step`: everything a next state
can be. -/

namespace Sys2Proof.Machine

open Sys2Proof.Config

section completeLoad

variable (s : State) (rt : RegNum) (u : Option RegNum) (sum : DWord) (w : Word)

@[simp] theorem completeLoad_pc : (completeLoad s rt u sum w).pc = s.pc + 4 := by cases u <;> rfl
@[simp] theorem completeLoad_mem : (completeLoad s rt u sum w).mem = s.mem := by cases u <;> rfl
@[simp] theorem completeLoad_mark : (completeLoad s rt u sum w).mark = s.mark := by cases u <;> rfl
@[simp] theorem completeLoad_text : (completeLoad s rt u sum w).text = s.text := by cases u <;> rfl
@[simp] theorem completeLoad_admits : (completeLoad s rt u sum w).admits = s.admits := by cases u <;> rfl
@[simp] theorem completeLoad_raUpdateMode : (completeLoad s rt u sum w).raUpdateMode = s.raUpdateMode := by
  cases u <;> rfl
@[simp] theorem completeLoad_oracle :
    (completeLoad s rt u sum w).oracle = s.oracle.drop (readEvents (effAddr sum)) := by cases u <;> rfl

theorem completeLoad_x_none (j : Nat) (h : j < 32) :
    (completeLoad s rt none sum w).x[j] = if rt.val = j then some (zext64 w) else s.x[j] := by
  simp [completeLoad]

theorem completeLoad_x_some (ra : RegNum) (j : Nat) (h : j < 32) :
    (completeLoad s rt (some ra) sum w).x[j] =
      if ra.val = j then some (upd s.raUpdateMode sum) else if rt.val = j then some (zext64 w) else s.x[j] := by
  simp [completeLoad]

end completeLoad

/-- R69: the validity check of the meanings is that of the syntax. -/
theorem invalidUpdateForm_eq (rt ra : RegNum) :
    invalidUpdateForm rt ra = !(baseIsNotZero ra && baseIsNotTarget rt ra) := by
  simp [invalidUpdateForm, baseIsNotZero, baseIsNotTarget, Bool.not_and]

/-- R93: every meaning is the validity check and then the shared load. -/
theorem exec_eq_load (i : Instr) (s : State) :
    exec i s = if i.wellFormed then load s (targetOf i) (updateOf i) (sumOf (baseOf s i) (offsetOf s i))
      else .refused (.invalidForm (encode i)) := by
  cases i with
  | lwz rt ra d => rfl
  | lwzu rt ra d =>
    have e : (Instr.lwzu rt ra d).wellFormed = (baseIsNotZero ra && baseIsNotTarget rt ra) := rfl
    rw [e]
    simp only [exec, execLwzu, invalidUpdateForm_eq]
    cases hv : (baseIsNotZero ra && baseIsNotTarget rt ra) <;> simp [targetOf, updateOf, baseOf, offsetOf]
  | lwzux rt ra rb =>
    have e : (Instr.lwzux rt ra rb).wellFormed = (baseIsNotZero ra && baseIsNotTarget rt ra) := rfl
    rw [e]
    simp only [exec, execLwzux, invalidUpdateForm_eq]
    cases hv : (baseIsNotZero ra && baseIsNotTarget rt ra) <;> simp [targetOf, updateOf, baseOf, offsetOf]
  | lwzx rt ra rb => rfl

theorem sumOf_ok_iff (base off : Except Fault DWord) (v : DWord) :
    sumOf base off = .ok v ↔ ∃ b o, base = .ok b ∧ off = .ok o ∧ v = addressSum b o := by
  cases base <;> cases off <;> simp [sumOf, eq_comm]

/-- Everything a completed `load` can be. -/
theorem load_next_iff (s t : State) (rt : RegNum) (u : Option RegNum) (sum : Except Fault DWord) :
    load s rt u sum = .next t ↔
      s.pc ≠ lastWordAddr ∧ ∃ v w, sum = .ok v ∧ memRead s (effAddr v) = .ok w ∧ t = completeLoad s rt u v w := by
  unfold load
  by_cases hp : s.pc = lastWordAddr
  · simp [hp]
  · simp only [hp, if_false, ne_eq, not_false_eq_true, true_and]
    cases sum with
    | error f => simp
    | ok v =>
      cases hm : memRead s (effAddr v) with
      | error f => simp [hm]
      | ok w => simp [hm, eq_comm]

/-- Everything a next state of `exec` can be: the valid form, the operands, the word read, and the state. -/
theorem exec_next_iff (i : Instr) (s t : State) :
    exec i s = .next t ↔
      i.wellFormed = true ∧ s.pc ≠ lastWordAddr ∧ ∃ b o w, baseOf s i = .ok b ∧ offsetOf s i = .ok o ∧
        memRead s (effAddr (addressSum b o)) = .ok w ∧
        t = completeLoad s (targetOf i) (updateOf i) (addressSum b o) w := by
  rw [exec_eq_load]
  cases hw : i.wellFormed with
  | false => simp
  | true =>
    simp only [if_true, load_next_iff, sumOf_ok_iff, true_and]
    constructor
    · rintro ⟨hp, v, w, ⟨b, o, hb, ho, rfl⟩, hm, rfl⟩
      exact ⟨hp, b, o, w, hb, ho, hm, rfl⟩
    · rintro ⟨hp, b, o, w, hb, ho, hm, rfl⟩
      exact ⟨hp, _, w, ⟨b, o, hb, ho, rfl⟩, hm, rfl⟩

/-- A valid form whose operands have values and whose word can be read completes. -/
theorem exec_completes {i : Instr} {s : State} {b o : DWord} {w : Word} (hw : i.wellFormed = true)
    (hp : s.pc ≠ lastWordAddr) (hb : baseOf s i = .ok b) (ho : offsetOf s i = .ok o)
    (hm : memRead s (effAddr (addressSum b o)) = .ok w) :
    exec i s = .next (completeLoad s (targetOf i) (updateOf i) (addressSum b o) w) :=
  (exec_next_iff i s _).mpr ⟨hw, hp, b, o, w, hb, ho, hm, rfl⟩

/-- A next state of `step` is a next state of the fetched and decoded instruction, and no mark was recorded. -/
theorem step_next_iff (s t : State) :
    step s = .next t ↔
      s.mark = none ∧ ∃ w i, fetch s = .ok w ∧ decode w = .ok i ∧ exec i s = .next t := by
  unfold step
  cases hm : s.mark with
  | some m => cases m <;> simp [resultOfMark]
  | none =>
    simp only [true_and]
    cases hf : fetch s with
    | error r => simp
    | ok w =>
      cases hd : decode w with
      | error r => simp [hd]
      | ok i => simp [hd]

end Sys2Proof.Machine
end

