-- ==== Sys2Proof/Laws/PerInstr.lean ====
section
/-! SUPPORT. Statements about every instruction as syntax, one lemma per constructor. -/

namespace Sys2Proof.Laws.EncodedWordMatchesRow

/-- R66: the encoded word of an instruction matches the row of its mnemonic. -/
def Statement (i : Instr) : Prop := encode i &&& maskWord i.mnemonic = matchWord i.mnemonic

/-- The set bits of the D form's mask. -/
theorem maskD_bit (k : Nat) (hk : k < 32) (h : (0xFC000000 : Word).getLsbD k = true) : 26 ≤ k := by
  revert h; revert k; decide

/-- The set bits of the X form's mask. -/
theorem maskX_bit (k : Nat) (hk : k < 32) (h : (0xFC0007FF : Word).getLsbD k = true) : 26 ≤ k ∨ k < 11 := by
  revert h; revert k; decide

theorem encodeD_matches (m : Mnemonic) (hm : maskWord m = 0xFC000000) (hw : matchWord m &&& 0xFC000000 = matchWord m)
    (rt ra : RegNum) (d : BitVec 16) : encodeD m rt ra d &&& maskWord m = matchWord m := by
  have h1 := and_mask_eq_zero (placeReg rt 21) 0xFC000000 fun k hk h => by
    have := maskD_bit k hk h
    rw [placeReg_getLsbD, regNum_testBit rt (k - 21) (by omega)]; simp
  have h2 := and_mask_eq_zero (placeReg ra 16) 0xFC000000 fun k hk h => by
    have := maskD_bit k hk h
    rw [placeReg_getLsbD, regNum_testBit ra (k - 16) (by omega)]; simp
  have h3 := and_mask_eq_zero (d.setWidth 32) 0xFC000000 fun k hk h => by
    have := maskD_bit k hk h
    rw [BitVec.getLsbD_setWidth, BitVec.getLsbD_of_ge d k (by omega)]; simp
  rw [hm, encodeD, or_and_distrib, or_and_distrib, or_and_distrib, h1, h2, h3, hw]
  simp

theorem encodeX_matches (m : Mnemonic) (hm : maskWord m = 0xFC0007FF) (hw : matchWord m &&& 0xFC0007FF = matchWord m)
    (rt ra rb : RegNum) : encodeX m rt ra rb &&& maskWord m = matchWord m := by
  have h0 : ∀ (r : RegNum) (n : Nat), 11 ≤ n → n ≤ 21 → placeReg r n &&& 0xFC0007FF = 0 := fun r n h11 h21 =>
    and_mask_eq_zero (placeReg r n) 0xFC0007FF fun k hk h => by
      rw [placeReg_getLsbD]
      rcases maskX_bit k hk h with h | h
      · rw [regNum_testBit r (k - n) (by omega)]; simp
      · simp [show k < n by omega]
  rw [hm, encodeX, or_and_distrib, or_and_distrib, or_and_distrib, h0 rt 21 (by omega) (by omega),
    h0 ra 16 (by omega) (by omega), h0 rb 11 (by omega) (by omega), hw]
  simp

theorem lwz (rt ra : RegNum) (d : BitVec 16) : Statement (.lwz rt ra d) :=
  encodeD_matches .lwz rfl (by decide) rt ra d

theorem lwzu (rt ra : RegNum) (d : BitVec 16) : Statement (.lwzu rt ra d) :=
  encodeD_matches .lwzu rfl (by decide) rt ra d

theorem lwzux (rt ra rb : RegNum) : Statement (.lwzux rt ra rb) :=
  encodeX_matches .lwzux rfl (by decide) rt ra rb

theorem lwzx (rt ra rb : RegNum) : Statement (.lwzx rt ra rb) :=
  encodeX_matches .lwzx rfl (by decide) rt ra rb

end Sys2Proof.Laws.EncodedWordMatchesRow
end

