-- ==== Sys2Proof/Laws/Run.lean ====
section
/-! SUPPORT. Runs one step at a time: the host's run and the marked run, after a next state, a fault and a refusal. -/

namespace Sys2Proof.Machine

section anyCore

variable (M : Host.Core)

theorem run_next {s t : M.State} (h : M.step s = .next t) (k : Nat) : M.run (k + 1) s = M.run k t := by
  rw [Host.Core.run, h]

theorem run_fault {s : M.State} {f : M.Fault} (h : M.step s = .fault f) (k : Nat) : M.run (k + 1) s = .fault f := by
  rw [Host.Core.run, h]

theorem run_refused {s : M.State} {r : M.Refusal} (h : M.step s = .refused r) (k : Nat) :
    M.run (k + 1) s = .refused r := by
  rw [Host.Core.run, h]

end anyCore

theorem core_run_zero (s : State) : Host.Core.run Sys2Proof.core 0 s = .next s := rfl

theorem core_run_next {s t : State} (h : step s = .next t) (k : Nat) :
    Host.Core.run Sys2Proof.core (k + 1) s = Host.Core.run Sys2Proof.core k t := run_next Sys2Proof.core h k

theorem core_run_fault {s : State} {f : Fault} (h : step s = .fault f) (k : Nat) :
    Host.Core.run Sys2Proof.core (k + 1) s = .fault f := run_fault Sys2Proof.core h k

theorem core_run_refused {s : State} {r : Refusal} (h : step s = .refused r) (k : Nat) :
    Host.Core.run Sys2Proof.core (k + 1) s = .refused r := run_refused Sys2Proof.core h k

theorem stepMarked_next {s t : State} (h : step s = .next t) : s.stepMarked = t := by simp [State.stepMarked, h]

theorem stepMarked_fault {s : State} {f : Fault} (h : step s = .fault f) :
    s.stepMarked = { s with mark := some (.fault f) } := by simp [State.stepMarked, h]

theorem stepMarked_endOfRun {s : State} {pc : Addr} (h : step s = .refused (.endOfRun pc)) : s.stepMarked = s := by
  simp [State.stepMarked, h]

/-- `k + 1` marked steps are one and then `k`. -/
theorem runMarked_succ (s : State) (k : Nat) : s.runMarked (k + 1) = s.stepMarked.runMarked k := rfl

/-- The word after this one, when `pc` is a multiple of 4 below the last word address. -/
theorem pc_add_four {pc : Addr} (h4 : pc.toNat % 4 = 0) (hp : pc ≠ lastWordAddr) : (pc + 4).toNat = pc.toNat + 4 := by
  have hne : pc.toNat ≠ lastWordAddr.toNat := fun e => hp (BitVec.eq_of_toNat_eq e)
  have hlast : lastWordAddr.toNat = 4294967292 := rfl
  have := pc.isLt
  rw [BitVec.toNat_add]
  simp
  omega

end Sys2Proof.Machine
end

