-- ==== Sys2Proof/Machine/Flags.lean ====
section
/-! DEFINITION. The family has no flag: none of the four instructions reads, writes, sets or clears a condition-register
field, carry, overflow or other status bit, under any operand values (R26, R98, R122), and the spec keeps the condition and
status registers out of the state (D23, log 24). The address addition drops its carries (`addressSum`, `effAddr`), so no
definition stands here. -/
end

