-- ==== Sys2Proof/Tests/Slice0.lean ====
section
/-! SUPPORT. The model's own tests, expected values from spec/95_test_vectors.md and the worked examples of R94 to R97, and
for every statement with hypotheses a witness that meets them. -/

namespace Sys2Proof.Tests

open Sys2Proof.Machine Sys2Proof.Config

/-! ### Ill-formed terms are refused by each check of WellFormed -/

theorem test_lwzu_zero_base_is_ill_formed : (Instr.lwzu 3 0 8).wellFormed = false ∧ baseIsNotZero 0 = false := by decide
theorem test_lwzu_base_is_target_is_ill_formed :
    (Instr.lwzu 3 3 8).wellFormed = false ∧ baseIsNotTarget 3 3 = false := by decide
theorem test_lwzux_zero_base_is_ill_formed : (Instr.lwzux 3 0 4).wellFormed = false := by decide
theorem test_lwzux_base_is_target_is_ill_formed : (Instr.lwzux 5 5 4).wellFormed = false := by decide
theorem test_valid_forms_are_well_formed :
    (Instr.lwz 0 0 0).wellFormed ∧ (Instr.lwzx 3 3 3).wellFormed ∧ (Instr.lwzu 0 1 0xFFF0).wellFormed ∧
      (Instr.lwzux 4 3 4).wellFormed := by decide

/-! ### Decoding: words written bit by bit from the bit pictures of R62 and R63 -/

theorem test_decode_lwz : decode 0b100000_00111_00011_1111111111111110 = .ok (.lwz 7 3 0xFFFE) := by decide
theorem test_decode_lwzu : decode 0b100001_00000_00001_1111111111110000 = .ok (.lwzu 0 1 0xFFF0) := by decide
theorem test_decode_lwzux : decode 0b011111_00110_00011_00100_0000110111_0 = .ok (.lwzux 6 3 4) := by decide
theorem test_decode_lwzx : decode 0b011111_00101_00011_00100_0000010111_0 = .ok (.lwzx 5 3 4) := by decide
/-- V10 and V24: invalid forms decode. -/
theorem test_decode_invalid_forms :
    decode 0x84600008 = .ok (.lwzu 3 0 8) ∧ decode 0x7CA5206E = .ok (.lwzux 5 5 4) := by decide
/-- V25, V30, V31, V33: refused words. -/
theorem test_decode_refusals :
    decode 0x7CC3206F = .error (.reservedBitSet 0x7CC3206F) ∧ decode 0x88830004 = .error (.notInScope 0x88830004) ∧
      decode 0x78830004 = .error (.notInScope 0x78830004) ∧ decode 0xFFFFFFFF = .error (.notInScope 0xFFFFFFFF) := by
  decide
/-- R54: `lwz r3, 0x100(0)` is the byte sequence `80 60 01 00`. -/
theorem test_decode_bytes : decodeBytes [0x80, 0x60, 0x01, 0x00, 0x84] = .ok (.lwz 3 0 0x100, [0x84]) := by decide
theorem test_decode_too_few_bytes : decodeBytes [0x80, 0x60, 0x01] = .error .tooFewBytes := by decide
theorem test_decode_table_word : decodeTableWord 32 0x7CA3202E = some (.lwzx 5 3 4) := by decide

/-! ### One step of each instruction, on the memory image of 95_test_vectors.md section 2.2 -/

/-- The memory image of section 2.2. -/
def image : Memory :=
  [(0, [0xCA, 0xFE, 0xBA, 0xBE]), (0x10, [0x01, 0x23, 0x45, 0x67]),
    (0xFFC, [0x00, 0x00, 0x00, 0x2A, 0x11, 0x22, 0x33, 0x44, 0xDE, 0xAD, 0xBE, 0xEF, 0x80, 0x00, 0x00, 0x01, 0xFF, 0xFF,
      0xFF, 0xFF]),
    (0x80000008, [0x55, 0xAA, 0x55, 0xAA]),
    (0xFFFF8000, [0x0B, 0xAD, 0xF0, 0x0D]), (0xFFFFFFFC, [0x7F, 0xFF, 0xFF, 0xFF])].foldl
      (fun m c => Memory.writeBytes m c.1 c.2) []

/-- The launch of section 2.2, with one word of text and the given registers; the others hold no value. -/
def launch (mode : RaUpdateMode) (regs : List (RegNum × DWord)) (w : Word) : State where
  x := regs.foldl (fun x r => x.set r.1 (some r.2)) (Vector.replicate 32 none)
  pc := 0x10000
  mem := image
  mark := none
  text := { base := 0x10000, words := [w] }
  admits := [⟨0, 3⟩, ⟨0x10, 0x13⟩, ⟨0xFFC, 0x100F⟩, ⟨0x80000008, 0x8000000B⟩,
    ⟨0xFFFF8000, 0xFFFF8003⟩, ⟨0xFFFFFFFC, 0xFFFFFFFF⟩]
  raUpdateMode := mode
  oracle := []

/-- A register after one step, if the step completes. -/
def regAfter (s : State) (r : RegNum) : Option DWord := (nextOf (step s)).bind fun t => t.x[r]

/-- V39: a negative displacement with the literal zero as base, `r0` without a value. -/
theorem test_lwz_negative_displacement_literal_zero : regAfter (launch .low32 [] 0x80608000) 3 = some 0x0BADF00D := by
  decide
/-- V43: `RT = RA`, address from the old value, bit 31 of the word not extended. -/
theorem test_lwz_target_is_base : regAfter (launch .low32 [(3, 0x1000)] 0x80630008) 3 = some 0x80000001 := by decide
/-- V54, both modes: the sum goes below zero. -/
theorem test_lwzu_wraps_low32 :
    let s := launch .low32 [(4, 4)] 0x84A4FFF8
    regAfter s 5 = some 0x7FFFFFFF ∧ regAfter s 4 = some 0xFFFFFFFC := by decide
theorem test_lwzu_wraps_full64 : regAfter (launch .full64 [(4, 4)] 0x84A4FFF8) 4 = some 0xFFFFFFFFFFFFFFFC := by decide
/-- V63: `RT = RB`, the index is read before the destination is written. -/
theorem test_lwzux_target_is_index :
    let s := launch .low32 [(3, 0x1000), (4, 0xC)] 0x7C83206E
    regAfter s 4 = some 0xFFFFFFFF ∧ regAfter s 3 = some 0x100C := by decide
/-- V64: `RB = 0` is the register `r0`. -/
theorem test_lwzux_index_is_r0 : regAfter (launch .low32 [(0, 4), (3, 0x1000)] 0x7CC3006E) 6 = some 0xDEADBEEF := by
  decide
/-- V77: both high halves dirty. -/
theorem test_lwzx_dirty_high_halves :
    regAfter (launch .low32 [(3, 0x1234567800001000), (4, 0x9ABCDEF000000004)] 0x7CA3202E) 5 = some 0xDEADBEEF := by
  decide
/-- V78: unaligned through the index. -/
theorem test_lwzx_unaligned : regAfter (launch .low32 [(3, 0x1000), (4, 9)] 0x7CA3202E) 5 = some 0x1FF := by decide

/-- R51: what another agent makes the first read event see stands in place of memory, for that load alone. -/
theorem test_oracle_answers_a_read :
    let s := { launch .low32 [] 0x80600000 with oracle := [[(3, 0x99)], []] }
    regAfter s 3 = some 0xCAFEBA99 ∧ (nextOf (step s)).map (fun t => (t.oracle, t.mem)) = some ([[]], image) := by decide

/-- The image is in canonical form. -/
theorem test_image_wf : image.wf = true := by decide

/-! ### Witnesses: every statement's hypotheses can be met together -/

theorem witness_DecodedWordEncodesBack : ∃ w i, decode w = .ok i ∧ w = 0x83FFFFFF := ⟨_, .lwz 31 31 0xFFFF, by decide, rfl⟩

theorem witness_DecoderFollowsTheOpcodeMap :
    ∃ (w : Word) (m m' : Mnemonic), w &&& maskWord m = matchWord m ∧ w &&& maskWord m' = matchWord m' :=
  ⟨0x7C00002E, .lwzx, .lwzx, by decide, by decide⟩

theorem witness_DecoderRefusesWithItsReason :
    (∃ w r, decode w = .error r ∧ w = 0x7CA3202F) ∧ ∃ w r, decode w = .error r ∧ w = 0x88830004 :=
  ⟨⟨_, .reservedBitSet 0x7CA3202F, by decide, rfl⟩, ⟨_, .notInScope 0x88830004, by decide, rfl⟩⟩

theorem witness_DisplacementIsSignExtended :
    (0x7FFF : BitVec 16).toNat < 0x8000 ∧ 0x8000 ≤ (0x8000 : BitVec 16).toNat := by decide

/-- V40 against the same load with a clean base. -/
theorem witness_HighHalvesDoNotReachTheAddress :
    ∃ (s t : State) (y : Vector (Option DWord) 32),
      (∀ r : RegNum, y[r].map (BitVec.setWidth 32) = s.x[r].map (BitVec.setWidth 32)) ∧ y ≠ s.x ∧
        exec (.lwz 4 3 8) s = .next t := by
  let s := launch .low32 [(3, 0x180000000)] 0
  obtain ⟨t, ht⟩ := exists_next_of_isSome (r := exec (.lwz 4 3 8) s) (by decide)
  exact ⟨s, t, (launch .low32 [(3, 0x80000000)] 0).x, by decide, by decide, ht⟩

theorem witness_NoRegisterIsHardwired :
    (∃ t, exec (.lwz 3 0 0) (launch .low32 [] 0) = .next t) ∧
      ∃ t, exec (.lwzx 3 0 4) (launch .low32 [(4, 0x10)] 0) = .next t :=
  ⟨exists_next_of_isSome (by decide), exists_next_of_isSome (by decide)⟩

/-- V83: `r0` differs and is not read. -/
theorem witness_ResultDependsOnlyOnTheRegistersRead :
    ∃ (s t : State) (y : Vector (Option DWord) 32),
      (∀ r ∈ regsRead (.lwz 3 0 0), y[r] = s.x[r]) ∧ y ≠ s.x ∧ exec (.lwz 3 0 0) s = .next t := by
  let s := launch .low32 [(0, 0x1000)] 0
  obtain ⟨t, ht⟩ := exists_next_of_isSome (r := exec (.lwz 3 0 0) s) (by decide)
  exact ⟨s, t, (launch .low32 [] 0).x, by decide, by decide, ht⟩

theorem witness_MemoryIsBigEndian :
    ∃ w, memRead (launch .low32 [] 0) 0xFFFFFFFC = .ok w ∧ SingleAgent (launch .low32 [] 0) := ⟨0x7FFFFFFF, by decide, rfl⟩

/-- The bytes read at the top of the address space and at every other alignment, whatever the registers. -/
theorem sees_last_word (mode : RaUpdateMode) (regs : List (RegNum × DWord)) :
    SeesBytes (launch mode regs 0) 0xFFFFFFFC 0x7F 0xFF 0xFF 0xFF :=
  (by unfold SeesBytes; decide : SeesBytes (launch .low32 [] 0) 0xFFFFFFFC 0x7F 0xFF 0xFF 0xFF)

theorem sees_unaligned (mode : RaUpdateMode) (regs : List (RegNum × DWord)) :
    SeesBytes (launch mode regs 0) 0x1005 0xAD 0xBE 0xEF 0x80 ∧
      SeesBytes (launch mode regs 0) 0xFFE 0x00 0x2A 0x11 0x22 ∧
      SeesBytes (launch mode regs 0) 0x1003 0x44 0xDE 0xAD 0xBE :=
  (by unfold SeesBytes; decide :
    SeesBytes (launch .low32 [] 0) 0x1005 0xAD 0xBE 0xEF 0x80 ∧ SeesBytes (launch .low32 [] 0) 0xFFE 0x00 0x2A 0x11 0x22 ∧
      SeesBytes (launch .low32 [] 0) 0x1003 0x44 0xDE 0xAD 0xBE)

theorem witness_AlignmentNeverStopsALoad :
    ∃ (i : Instr) (s : State) (base off : DWord) (b0 b1 b2 b3 : Byte),
      i.wellFormed = true ∧ s.pc ≠ 0xFFFFFFFC ∧ baseOf s i = .ok base ∧ offsetOf s i = .ok off ∧
        SeesBytes s (effAddr (addressSum base off)) b0 b1 b2 b3 :=
  ⟨.lwzux 6 3 4, launch .low32 [(3, 0x1000), (4, 5)] 0, 0x1000, 5, _, _, _, _, rfl, by decide, rfl, rfl,
    (sees_unaligned _ _).1⟩

/-- A state in which another agent answers: event 1 would see other bytes at 0x1000 and 0x1001, event 0 sees memory. -/
def answered : State := { launch .low32 [] 0 with oracle := [[], [(0x1001, 0x99), (0x1000, 0x77)]] }

/-- One input for each clause: an aligned read and misaligned ones at each remainder, with an oracle that answers; two oracles
that differ beyond the first answer, and beyond the fourth. -/
theorem witness_ReadsDependOnTheirOwnReadEvents :
    (∃ w, memRead answered 0x1000 = .ok w ∧ (0x1000 : Addr).toNat % 4 = 0) ∧
      (memRead answered 0x1001 = .ok 0x223344DE ∧ memRead answered 0x1002 = .ok 0x3344DEAD ∧
        memRead answered 0x1003 = .ok 0x44DEADBE ∧ memRead answered 0x1000 = .ok 0x11223344 ∧
        memRead { answered with oracle := [[(0x1001, 0x99)]] } 0x1001 = .ok 0x993344DE) ∧
      (∃ (s : State) (a : Addr) (o : List (List Host.Cell)),
        a.toNat % 4 = 0 ∧ o.getD 0 [] = s.oracle.getD 0 [] ∧ o ≠ s.oracle) ∧
      (∃ (s : State) (a : Addr) (o : List (List Host.Cell)),
        (∀ k < 4, o.getD k [] = s.oracle.getD k []) ∧ o ≠ s.oracle ∧ a.toNat % 4 = 3) ∧
      ∃ s : State, SingleAgent s :=
  ⟨⟨0x11223344, by decide, by decide⟩, by decide,
    ⟨launch .low32 [] 0, 0x1000, [[], [(0x1000, 1)]], by decide, by decide, by decide⟩,
    ⟨launch .low32 [] 0, 0x1003, [[], [], [], [], [(0x1000, 1)]], by decide, by decide, by decide⟩,
    ⟨launch .low32 [] 0, rfl⟩⟩

theorem witness_ReadsAreRepeatable : ∃ i s t, SingleAgent s ∧ exec i s = .next t := by
  obtain ⟨t, ht⟩ := exists_next_of_isSome (r := exec (.lwzu 5 4 4) (launch .low32 [(4, 0xFFC)] 0)) (by decide)
  exact ⟨.lwzu 5 4 4, launch .low32 [(4, 0xFFC)] 0, t, rfl, ht⟩

/-- V45 (the last word, `RA` a register) and V39 (the literal zero). -/
theorem witness_LwzCompletesWithTheLoadedWord :
    (∃ (s : State) (base : DWord) (b0 b1 b2 b3 : Byte), s.pc ≠ 0xFFFFFFFC ∧
      (if (3 : RegNum) = 0 then base = 0 else s.x[(3 : RegNum)] = some base) ∧
      SeesBytes s ((base + (0 : BitVec 16).signExtend 64).setWidth 32) b0 b1 b2 b3) ∧
    ∃ (s : State) (base : DWord) (b0 b1 b2 b3 : Byte), s.pc ≠ 0xFFFFFFFC ∧
      (if (0 : RegNum) = 0 then base = 0 else s.x[(0 : RegNum)] = some base) ∧
      SeesBytes s ((base + (0xFFFC : BitVec 16).signExtend 64).setWidth 32) b0 b1 b2 b3 :=
  ⟨⟨launch .low32 [(3, 0xFFFFFFFC)] 0, 0xFFFFFFFC, _, _, _, _, by decide, by decide, sees_last_word _ _⟩,
    ⟨launch .low32 [] 0, 0, _, _, _, _, by decide, by decide, sees_last_word _ _⟩⟩

/-- V54 in both modes: the address is the last word's. -/
theorem witness_LwzuCompletesWithTheLoadedWordAndAddress (mode : RaUpdateMode) :
    ∃ (s : State) (base : DWord) (b0 b1 b2 b3 : Byte),
      (4 : RegNum) ≠ 0 ∧ (4 : RegNum) ≠ 5 ∧ s.pc ≠ 0xFFFFFFFC ∧ s.raUpdateMode = mode ∧ s.x[(4 : RegNum)] = some base ∧
      SeesBytes s ((base + (0xFFF8 : BitVec 16).signExtend 64).setWidth 32) b0 b1 b2 b3 :=
  ⟨launch mode [(4, 4)] 0, 4, _, _, _, _, by decide, by decide, (by decide : (0x10000 : Addr) ≠ 0xFFFFFFFC), rfl, rfl, sees_last_word _ _⟩

/-- `RT = RB`, and the misaligned address 0x1003. -/
theorem witness_LwzuxCompletesWithTheLoadedWordAndAddress :
    ∃ (s : State) (base index : DWord) (b0 b1 b2 b3 : Byte),
      (3 : RegNum) ≠ 0 ∧ (3 : RegNum) ≠ 4 ∧ s.pc ≠ 0xFFFFFFFC ∧ s.x[(3 : RegNum)] = some base ∧
      s.x[(4 : RegNum)] = some index ∧ SeesBytes s ((base + index).setWidth 32) b0 b1 b2 b3 :=
  ⟨launch .low32 [(3, 0xFFFFFFFF00001000), (4, 3)] 0, 0xFFFFFFFF00001000, 3, _, _, _, _, by decide, by decide, by decide,
    by decide, by decide, (sees_unaligned _ _).2.2⟩

/-- `RA = 0` the literal zero with `RB = 0` the register `r0`, and `RA` a register. -/
theorem witness_LwzxCompletesWithTheLoadedWord :
    (∃ (s : State) (base index : DWord) (b0 b1 b2 b3 : Byte), s.pc ≠ 0xFFFFFFFC ∧
      (if (0 : RegNum) = 0 then base = 0 else s.x[(0 : RegNum)] = some base) ∧ s.x[(0 : RegNum)] = some index ∧
      SeesBytes s ((base + index).setWidth 32) b0 b1 b2 b3) ∧
    ∃ (s : State) (base index : DWord) (b0 b1 b2 b3 : Byte), s.pc ≠ 0xFFFFFFFC ∧
      (if (3 : RegNum) = 0 then base = 0 else s.x[(3 : RegNum)] = some base) ∧ s.x[(4 : RegNum)] = some index ∧
      SeesBytes s ((base + index).setWidth 32) b0 b1 b2 b3 :=
  ⟨⟨launch .low32 [(0, 0xFFE)] 0, 0, 0xFFE, _, _, _, _, by decide, by decide, by decide, (sees_unaligned _ _).2.1⟩,
    ⟨launch .low32 [(3, 0x1009), (4, 0xFFFFFFFFFFFFFFFC)] 0, 0x1009, 0xFFFFFFFFFFFFFFFC, _, _, _, _, by decide, by decide,
      by decide, (sees_unaligned _ _).1⟩⟩

/-- A completed form of each of the four instructions; the next eight statements have one of these as their hypothesis. -/
theorem witness_each_instruction_completes :
    (∃ t, exec (.lwz 4 3 4) (launch .low32 [(3, 0x1000)] 0) = .next t) ∧
      (∃ t, exec (.lwzu 5 4 4) (launch .low32 [(4, 0xFFC)] 0) = .next t) ∧
      (∃ t, exec (.lwzux 6 3 4) (launch .full64 [(3, 0x1008), (4, 0xFFFFFFFC)] 0) = .next t) ∧
      ∃ t, exec (.lwzx 5 3 4) (launch .low32 [(3, 0x1000), (4, 4)] 0) = .next t :=
  ⟨exists_next_of_isSome (by decide), exists_next_of_isSome (by decide), exists_next_of_isSome (by decide),
    exists_next_of_isSome (by decide)⟩

theorem witness_LoadedWordFillsTheDestination : ∃ i s t, exec i s = .next t :=
  ⟨_, _, witness_each_instruction_completes.1⟩

theorem witness_PlainLoadsChangeOnlyTheirDestination :
    (∃ s t, exec (.lwz 4 3 4) s = .next t) ∧ ∃ s t, exec (.lwzx 5 3 4) s = .next t :=
  ⟨⟨_, witness_each_instruction_completes.1⟩, ⟨_, witness_each_instruction_completes.2.2.2⟩⟩

theorem witness_UpdateLoadsChangeOnlyDestinationAndBase :
    (∃ s t, exec (.lwzu 5 4 4) s = .next t) ∧ ∃ s t, exec (.lwzux 6 3 4) s = .next t :=
  ⟨⟨_, witness_each_instruction_completes.2.1⟩, ⟨_, witness_each_instruction_completes.2.2.1⟩⟩

theorem witness_UpdateFormsWriteTheAddressBack :
    (∃ s t, s.raUpdateMode = .low32 ∧ exec (.lwzu 5 4 4) s = .next t) ∧
      ∃ s t, s.raUpdateMode = .full64 ∧ exec (.lwzux 6 3 4) s = .next t := by
  obtain ⟨t, ht⟩ := witness_each_instruction_completes.2.1
  obtain ⟨u, hu⟩ := witness_each_instruction_completes.2.2.1
  exact ⟨⟨_, t, rfl, ht⟩, ⟨_, u, rfl, hu⟩⟩

/-- V34 run as a step. -/
theorem witness_step_completes : ∃ t, step (launch .low32 [(3, 0x1000)] 0x80830004) = .next t :=
  exists_next_of_isSome (by decide)

/-- V47: no byte admitted. -/
theorem witness_step_stops : ∀ t, step (launch .low32 [(3, 0x2000)] 0x80830000) ≠ .next t :=
  ne_next_of_isNone (by decide)

theorem witness_CompletedStepAddsFourToPc :
    (∃ i s t, exec i s = .next t) ∧ (∃ s t, step s = .next t) ∧ ∃ s, ∀ t, step s ≠ .next t :=
  ⟨⟨_, _, witness_each_instruction_completes.1⟩, ⟨_, witness_step_completes⟩, ⟨_, witness_step_stops⟩⟩

theorem witness_DisplacementAndIndexLoadsAgree :
    ∃ (s : State) (rt ra rb : RegNum) (d : BitVec 16), s.x[rb] = some (d.signExtend 64) ∧ ra ≠ 0 ∧ ra ≠ rt :=
  ⟨launch .low32 [(3, 0x1008), (4, 0xFFFFFFFFFFFF8000)] 0, 5, 3, 4, 0x8000, by decide, by decide, by decide⟩

/-- A state of its own for a byte without a value: three of four admitted bytes have one. -/
def threeBytes : State :=
  { launch .low32 [(3, 0x2000)] 0 with
    mem := Memory.writeBytes [] 0x2000 [1, 2, 3]
    admits := [⟨0x2000, 0x2003⟩] }

/-- One input for each clause: an invalid form; `pc` at the last word; `RA` and then `RB` without a value (V70); the first
address past the last word (V46); one byte too many (V48); the last of the four bytes without a value. -/
theorem witness_ChecksStopInTheirOrder :
    (Instr.lwzu 3 3 8).wellFormed = false ∧
    (∃ s : State, (Instr.lwz 4 3 0).wellFormed = true ∧ s.pc = 0xFFFFFFFC) ∧
    (regsRead (.lwzux 6 3 4)).find? (fun r => (launch .low32 [(4, 0)] 0).x[r].isNone) = some 3 ∧
    (regsRead (.lwzux 6 3 4)).find? (fun r => (launch .low32 [(3, 0x1000)] 0).x[r].isNone) = some 4 ∧
    (∃ base off, baseOf (launch .low32 [(3, 0xFFFFFFFC)] 0) (.lwz 4 3 1) = .ok base ∧
      offsetOf (launch .low32 [(3, 0xFFFFFFFC)] 0) (.lwz 4 3 1) = .ok off ∧
      (0xFFFFFFFC : Addr) < (base + off).setWidth 32) ∧
    (∃ k < 4, admitsByte (launch .low32 [] 0).admits ((0x100E : Addr).toNat + k) = false) ∧
    ((∀ k < 4, admitsByte threeBytes.admits ((0x2000 : Addr).toNat + k) = true) ∧
      (∀ j < 3, (byteSeen threeBytes (eventOfByte 0x2000 j) ((0x2000 : Addr).toNat + j)).isSome = true) ∧
      byteSeen threeBytes (eventOfByte 0x2000 3) ((0x2000 : Addr).toNat + 3) = none) :=
  ⟨rfl, ⟨{ launch .low32 [] 0 with pc := 0xFFFFFFFC }, rfl, rfl⟩, by decide, by decide,
    ⟨0xFFFFFFFC, 1, rfl, rfl, by decide⟩, by decide, by decide, by decide, by decide⟩

theorem witness_StepRunsTheDecodedInstruction :
    let s := launch .low32 [] 0x80830004
    s.mark = none ∧ s.pc.toNat % 4 = 0 ∧ s.text.words[0]? = some 0x80830004 ∧ s.pc.toNat = s.text.base.toNat + 4 * 0 ∧
      decode 0x80830004 = .ok (.lwz 4 3 4) := by decide

/-- One input for each clause: a misaligned `pc`, words that do not decode, the end of the text and one word beyond it. -/
theorem witness_FetchStopsWithItsReason :
    let s := launch .low32 [] 0x7CA3202F
    s.mark = none ∧ { s with pc := 0x10002 }.pc.toNat % 4 ≠ 0 ∧
    (s.pc.toNat % 4 = 0 ∧ s.text.words[0]? = some 0x7CA3202F ∧ s.pc.toNat = s.text.base.toNat + 4 * 0 ∧
      decode 0x7CA3202F = .error (.reservedBitSet 0x7CA3202F) ∧ decode 0 = .error (.notInScope 0)) ∧
    (0x10004 : Addr).toNat = textEnd s.text ∧
    ∀ k ≤ s.text.words.length, (0x10008 : Addr).toNat ≠ s.text.base.toNat + 4 * k := by decide

theorem witness_TextIsApartFromMemory : ∃ s t, step s = .next t := ⟨_, witness_step_completes⟩

/-- A fault, and the end of a run. -/
theorem witness_FailedStepChangesNothing :
    (∃ s, s.mark = none ∧ ∀ t, step s ≠ .next t) ∧ ∀ t, step State.reset ≠ .next t :=
  ⟨⟨_, rfl, witness_step_stops⟩, ne_next_of_isNone (by decide)⟩

theorem witness_RecordedMarkIsNeverCleared :
    ∃ (s : State) (m : Mark), s.mark = some m ∧ s = (launch .low32 [(3, 0x2000)] 0x80830000).stepMarked :=
  ⟨_, .fault (.loadNotAdmitted 0x2000), by decide, rfl⟩

theorem witness_StepKeepsMemoryAndParameters : ∃ s t, step s = .next t := ⟨_, witness_step_completes⟩

theorem witness_RegistersNeverLoseTheirValue :
    (∃ s t, step s = .next t ∧ ∃ r : RegNum, s.x[r].isSome = true) ∧
      AllRegsGiven State.reset ∧ State.reset.mark = none := by
  obtain ⟨t, ht⟩ := witness_step_completes
  exact ⟨⟨_, t, ht, 3, by decide⟩, by unfold AllRegsGiven; decide, rfl⟩

theorem witness_StepKeepsRunning : ∃ s t, Running s ∧ step s = .next t := by
  obtain ⟨t, ht⟩ := witness_step_completes
  exact ⟨launch .low32 [(3, 0x1000)] 0x80830004, t, ⟨by decide, by decide, ⟨0, by decide, by decide⟩, rfl⟩, ht⟩

/-- Program P2 with its launch state. -/
def walk : State :=
  { launch .low32 [(4, 0x2FFC)] 0 with
    mem := Memory.writeBytes [] 0x3000 [0, 0, 0, 1, 0, 0, 0, 2, 0xFF, 0xFF, 0xFF, 0xFD]
    admits := [⟨0x3000, 0x300B⟩]
    text := { base := 0x10000, words := [0x84A40004, 0x84C40004, 0x84E40004] } }

theorem walk_textWellFormed : TextWellFormed walk.text := by
  refine ⟨by decide, by decide, fun w hw => ?_⟩
  have h : w = 0x84A40004 ∨ w = 0x84C40004 ∨ w = 0x84E40004 := by simpa [walk] using hw
  rcases h with rfl | rfl | rfl
  · exact ⟨.lwzu 5 4 4, by decide, by decide⟩
  · exact ⟨.lwzu 6 4 4, by decide, by decide⟩
  · exact ⟨.lwzu 7 4 4, by decide, by decide⟩

theorem witness_WellFormedTextRunsOnceInOrder :
    TextWellFormed walk.text ∧ NoMark walk ∧ walk.pc = walk.text.base ∧
      (walk.runMarked 2).mark = none ∧ walk.text.words[2]? = some 0x84E40004 :=
  ⟨walk_textWellFormed, rfl, rfl, by decide, by decide⟩

theorem witness_RunEndsAfterExactlyTheText :
    TextWellFormed walk.text ∧ NoMark walk ∧ walk.pc = walk.text.base ∧
      (∃ t, Host.Core.run Sys2Proof.core 1 walk = .next t) ∧
      ∃ s r, TextWellFormed s.text ∧ NoMark s ∧ s.pc = s.text.base ∧ Host.Core.run Sys2Proof.core 1 s = .refused r := by
  obtain ⟨t, ht⟩ := exists_next_of_isSome (r := step walk) (by decide)
  refine ⟨walk_textWellFormed, rfl, rfl, ⟨t, by rw [core_run_next ht, core_run_zero]⟩, State.reset, .endOfRun 0,
    ⟨by decide, by decide, fun w hw => by simp [State.reset, resetText] at hw⟩, rfl, rfl, ?_⟩
  exact core_run_refused ((stopOf_refused_iff _ _).mp (by decide)) 0

theorem witness_LaunchedWordRunsNext :
    ∃ (s : State) (w : Word) (i : Instr), decode w = .ok i ∧ s.pc.toNat % 4 = 0 :=
  ⟨State.reset, 0x7CA3202E, .lwzx 5 3 4, by decide, by decide⟩

theorem witness_AssembledSpellingReadsBack : (Instr.lwz 31 0 0x8000).wellFormed = true := rfl

end Sys2Proof.Tests
end

section
/-! PROOFS. Registers and `pc` after a step (spec/10_state.md): a completed instruction writes only the registers of R22 and
adds 4 to `pc`, and a step that stops changes only the mark. -/

namespace Sys2Proof.Machine

/-! ### What an instruction and a step leave and set -/

/-- R91, R92: a completed load leaves every register but its destination and the base it writes back to. -/
theorem completeLoad_x_of_ne {s : State} {rt r : RegNum} {u : Option RegNum} {sum : DWord} {w : Word}
    (ht : r ≠ rt) (hu : u ≠ some r) : (completeLoad s rt u sum w).x[r] = s.x[r] := by
  have ht' : rt.val ≠ r.val := fun e => ht (Fin.ext e.symm)
  cases u with
  | none => simp [completeLoad_x_none, ht']
  | some ra =>
    have ha' : ra.val ≠ r.val := fun e => hu (congrArg some (Fin.ext e))
    simp [completeLoad_x_some, ht', ha']

/-- R22: the registers written are the destination and, in an update form, the base. -/
theorem mem_regsWritten_iff (i : Instr) (r : RegNum) : r ∈ regsWritten i ↔ r = targetOf i ∨ updateOf i = some r := by
  cases i <;> simp [regsWritten, targetOf, updateOf, eq_comm]

/-- R22: a completed instruction leaves every register it does not write. -/
theorem exec_next_x_of_notMem {i : Instr} {s t : State} {r : RegNum} (h : exec i s = .next t)
    (hr : r ∉ regsWritten i) : t.x[r] = s.x[r] := by
  obtain ⟨-, -, b, o, w, -, -, -, rfl⟩ := (exec_next_iff i s t).mp h
  obtain ⟨ht, hu⟩ := not_or.mp (mt (mem_regsWritten_iff i r).mpr hr)
  exact completeLoad_x_of_ne ht hu

/-- R24 for one instruction. -/
theorem exec_next_pc {i : Instr} {s t : State} (h : exec i s = .next t) : t.pc = s.pc + 4 := by
  obtain ⟨-, -, b, o, w, -, -, -, rfl⟩ := (exec_next_iff i s t).mp h
  exact completeLoad_pc ..

/-- R24 for one step. -/
theorem step_next_pc {s t : State} (h : step s = .next t) : t.pc = s.pc + 4 := by
  obtain ⟨-, w, i, -, -, hi⟩ := (step_next_iff s t).mp h
  exact exec_next_pc hi

theorem nextOf_eq_none_iff (r : Result) : nextOf r = none ↔ ∀ t, r ≠ .next t := by
  simp only [Option.eq_none_iff_forall_ne_some, ne_eq, nextOf_eq_some_iff]

/-- R9, R93: a step that stops changes no field but the mark. -/
theorem stepMarked_of_stop {s : State} (h : ∀ t, step s ≠ .next t) :
    s.stepMarked = { s with mark := s.stepMarked.mark } :=
  State.record_stop s (step s) ((nextOf_eq_none_iff _).mpr h)

theorem stepMarked_pc_of_stop {s : State} (h : ∀ t, step s ≠ .next t) : s.stepMarked.pc = s.pc := by
  rw [stepMarked_of_stop h]

/-! ### The statements -/

/-- Settles O25, from the inversion of `exec` and `step` and from what recording a stop leaves. -/
theorem completedStepAddsFourToPc : Obligations.CompletedStepAddsFourToPc :=
  ⟨fun _ _ _ => exec_next_pc, fun _ _ => step_next_pc, fun _ => stepMarked_pc_of_stop⟩

/-- R21: the literal zero in `RA` of `lwz` and `lwzx` leaves `r0` alone, since neither form writes its base. -/
theorem literalZeroBase_leaves_r0 {s t : State} {rt rb : RegNum} {d : BitVec 16} (hrt : rt ≠ 0)
    (h : exec (.lwz rt 0 d) s = .next t ∨ exec (.lwzx rt 0 rb) s = .next t) :
    t.x[(0 : RegNum)] = s.x[(0 : RegNum)] := by
  have hr : (0 : RegNum) ∉ [rt] := by simpa using hrt.symm
  rcases h with h | h
  · exact exec_next_x_of_notMem h hr
  · exact exec_next_x_of_notMem h hr

/-- R69: base field 0 makes an update form invalid. -/
theorem zeroBase_updateForms_invalid (rt rb : RegNum) (d : BitVec 16) :
    (Instr.lwzu rt 0 d).wellFormed = false ∧ (Instr.lwzux rt 0 rb).wellFormed = false := by
  simp [Instr.wellFormed, baseIsNotZero]

/-- Settles O12: the read-after-write rule of registers, the operand forms as they are defined, and the frame of a completed
instruction. -/
theorem noRegisterIsHardwired : Obligations.NoRegisterIsHardwired := by
  refine ⟨fun s i j v => ?_, fun s rt ra rb d => ⟨rfl, rfl, rfl, rfl, rfl, rfl⟩,
    fun _ _ _ _ _ => literalZeroBase_leaves_r0, zeroBase_updateForms_invalid⟩
  simp only [readReg_writeReg, eq_comm (a := i)]

end Sys2Proof.Machine
end

section
/-! PROOFS. Memory as a load reads it (spec/20_memory.md): the bytes of the word read stand in it most significant first, and
no alignment stops a load. -/

namespace Sys2Proof.Machine

/-! ### The bytes of a word read -/

/-- R41: the bytes of a word made of four bytes, the first the most significant. -/
theorem extractLsb'_wordOfBytes (b0 b1 b2 b3 : Byte) :
    (wordOfBytes b0 b1 b2 b3).extractLsb' 24 8 = b0 ∧ (wordOfBytes b0 b1 b2 b3).extractLsb' 16 8 = b1 ∧
      (wordOfBytes b0 b1 b2 b3).extractLsb' 8 8 = b2 ∧ (wordOfBytes b0 b1 b2 b3).extractLsb' 0 8 = b3 := by
  rw [wordOfBytes_eq_append]
  refine ⟨?_, ?_, ?_, BitVec.extractLsb'_append_eq_right⟩
  · rw [BitVec.extractLsb'_append_eq_of_le (by decide), BitVec.extractLsb'_append_eq_of_le (by decide)]
    exact BitVec.extractLsb'_append_eq_left
  · rw [BitVec.extractLsb'_append_eq_of_le (by decide), BitVec.extractLsb'_append_eq_of_le (by decide)]
    exact BitVec.extractLsb'_append_eq_right
  · rw [BitVec.extractLsb'_append_eq_of_le (by decide)]
    exact BitVec.extractLsb'_append_eq_right

/-- R41: byte `k` of the word a read answers is the byte seen at its address plus `k`. -/
theorem byteSeen_of_memRead {s : State} {a : Addr} {w : Word} (h : memRead s a = .ok w) {k : Nat} (hk : k < 4) :
    byteSeen s (eventOfByte a k) (a.toNat + k) = some (w.extractLsb' (24 - 8 * k) 8) := by
  obtain ⟨b0, b1, b2, b3, ⟨-, -, h0, h1, h2, h3⟩, rfl⟩ := (memRead_ok_iff s a w).mp h
  obtain ⟨e0, e1, e2, e3⟩ := extractLsb'_wordOfBytes b0 b1 b2 b3
  match k, hk with
  | 0, _ => exact h0.trans (congrArg some e0.symm)
  | 1, _ => exact h1.trans (congrArg some e1.symm)
  | 2, _ => exact h2.trans (congrArg some e2.symm)
  | 3, _ => exact h3.trans (congrArg some e3.symm)

/-! ### The destination of a completed load -/

/-- R91: zero extension puts 32 zero bits before the word. -/
theorem zext64_eq_append (w : Word) : zext64 w = 0#32 ++ w := BitVec.setWidth_eq_append (by decide)

/-- R91: a load that does not write back to its destination leaves the zero-extended word there. -/
theorem completeLoad_x_target {s : State} {rt : RegNum} {u : Option RegNum} {sum : DWord} {w : Word}
    (hu : u ≠ some rt) : (completeLoad s rt u sum w).x[rt] = some (zext64 w) := by
  cases u with
  | none => simp [completeLoad_x_none]
  | some ra =>
    have ha : ra.val ≠ rt.val := fun e => hu (congrArg some (Fin.ext e))
    simp [completeLoad_x_some, ha]

/-- R69: no valid form writes its address back to its destination. -/
theorem updateOf_ne_targetOf {i : Instr} (h : i.wellFormed = true) : updateOf i ≠ some (targetOf i) := by
  cases i with
  | lwz | lwzx => simp [updateOf]
  | lwzu | lwzux =>
    simp only [Instr.wellFormed, baseIsNotTarget, Bool.and_eq_true, decide_eq_true_eq] at h
    simpa [updateOf, targetOf] using h.2

/-! ### The statements -/

/-- Settles O14: each byte of the word read is the byte seen, which is the one in memory when no other agent answers. -/
theorem memoryIsBigEndian : Obligations.MemoryIsBigEndian := by
  intro s a w h
  refine ⟨fun k hk => byteSeen_of_memRead h hk, fun hs k hk => ?_⟩
  rw [← byteSeen_singleAgent hs (eventOfByte a k)]
  exact byteSeen_of_memRead h hk

/-- Settles O15: a read that sees its four bytes answers them whatever the address, and a valid form that can read its word
completes and keeps it in its destination, which no write-back replaces. -/
theorem alignmentNeverStopsALoad : Obligations.AlignmentNeverStopsALoad := by
  refine ⟨fun s a b0 b1 b2 b3 => memRead_of_seesBytes, fun i s base off b0 b1 b2 b3 hwf hpc hbase hoff hsees => ?_⟩
  refine ⟨_, exec_completes hwf hpc hbase hoff (memRead_of_seesBytes hsees), ?_⟩
  rw [completeLoad_x_target (updateOf_ne_targetOf hwf), zext64_eq_append]

end Sys2Proof.Machine
end

section
/-! PROOFS. The displacement of the D form (spec/30_encoding.md): the low 16 bits of the word, sign-extended to 64 bits. -/

namespace Sys2Proof.Machine

/-- R61: `D` is the field at the least significant end, so cutting it out is truncation. -/
theorem fieldD_eq_setWidth (w : Word) : fieldD w = w.setWidth 16 := by
  apply BitVec.eq_of_toNat_eq
  simp [fieldD, ibm_eq_div_mod]

/-- R64: sign extension adds 48 one bits above a displacement whose bit 15 is set, and nothing above any other. -/
theorem sext64_toNat (d : BitVec 16) :
    (sext64 d).toNat = d.toNat + if 0x8000 ≤ d.toNat then 0xFFFFFFFFFFFF0000 else 0 := by
  have hmsb : d.msb = decide (0x8000 ≤ d.toNat) := BitVec.msb_eq_decide d
  have hwide : (d.setWidth 64).toNat = d.toNat := BitVec.toNat_setWidth_of_le (by decide)
  simp [sext64, BitVec.toNat_signExtend, hmsb, hwide]

theorem sext64_toInt (d : BitVec 16) : (sext64 d).toInt = d.toInt :=
  BitVec.toInt_signExtend_of_le (by decide)

/-- Settles O9: the field is a truncation, `sext64` has its two ranges by the sign bit and keeps the signed value, and the
D forms take it as their offset as it is. -/
theorem displacementIsSignExtended : Obligations.DisplacementIsSignExtended := by
  refine ⟨fieldD_eq_setWidth, fun d => ⟨fun hlow => ?_, fun hhigh => ?_, sext64_toInt d, BitVec.le_toInt d,
    Int.le_of_lt_add_one BitVec.toInt_lt, fun s rt ra => ⟨rfl, rfl⟩⟩⟩
  · rw [sext64_toNat, if_neg (Nat.not_le.mpr hlow), Nat.add_zero]
  · rw [sext64_toNat, if_pos hhigh]

end Sys2Proof.Machine
end

section
/-! PROOFS. The word load and its zero extension (spec/40_load_word_and_zero.md): the destination of a completed load holds
the word read, below 32 zero bits. -/

namespace Sys2Proof.Machine

/-- R91: bits 31 to 0 of the zero-extended word are the word. -/
theorem extractLsb'_zext64_low (w : Word) : (zext64 w).extractLsb' 0 32 = w := by
  rw [zext64_eq_append]
  exact BitVec.extractLsb'_append_eq_right

/-- R91: bits 63 to 32 of the zero-extended word are 0. -/
theorem extractLsb'_zext64_high (w : Word) : (zext64 w).extractLsb' 32 32 = 0 := by
  rw [zext64_eq_append]
  exact BitVec.extractLsb'_append_eq_left

/-- Settles O22: the inversion of `exec` gives the operands and the word read, and no valid form writes its address back over
the zero-extended word in its destination. -/
theorem loadedWordFillsTheDestination : Obligations.LoadedWordFillsTheDestination := by
  intro i s t h
  obtain ⟨hwf, -, base, off, w, hbase, hoff, hread, rfl⟩ := (exec_next_iff i s t).mp h
  exact ⟨base, off, w, zext64 w, hbase, hoff, hread, completeLoad_x_target (updateOf_ne_targetOf hwf),
    extractLsb'_zext64_low w, extractLsb'_zext64_high w⟩

end Sys2Proof.Machine
end

section
/-! PROOFS. Encoding and decoding (spec/30_encoding.md): the fields of a word are its digits, a word is an instruction's exactly
when it decodes to it, and the masks and opcode words of R66 say what the fields are. -/

namespace Sys2Proof

open Sys2Proof.Machine

/-! ### Fields as numbers and as bits -/

/-- R61: a field is the bits of the word from `31 - b` on, counted from the least significant end. -/
theorem ibm_eq_extractLsb' (w : Word) (a b : Nat) : ibm w a b = (w.extractLsb' (31 - b) (b - a + 1)).toNat := by
  rw [ibm_eq_div_mod, BitVec.extractLsb'_toNat, Nat.shiftRight_eq_div_pow]

/-- A concatenation as a number. -/
theorem toNat_append_eq_add {m n : Nat} (x : BitVec m) (y : BitVec n) : (x ++ y).toNat = x.toNat * 2 ^ n + y.toNat := by
  rw [BitVec.toNat_append, ← Nat.shiftLeft_add_eq_or_of_lt y.isLt, Nat.shiftLeft_eq]

theorem fieldOpcd_eq_div (w : Word) : fieldOpcd w = w.toNat / 2 ^ 26 % 64 := ibm_eq_div_mod w 0 5

theorem fieldRt_val (w : Word) : (fieldRt w).val = w.toNat / 2 ^ 21 % 32 := by
  simp [fieldRt, ibm_eq_div_mod]

theorem fieldRa_val (w : Word) : (fieldRa w).val = w.toNat / 2 ^ 16 % 32 := by
  simp [fieldRa, ibm_eq_div_mod]

theorem fieldRb_val (w : Word) : (fieldRb w).val = w.toNat / 2 ^ 11 % 32 := by
  simp [fieldRb, ibm_eq_div_mod]

theorem fieldD_toNat (w : Word) : (fieldD w).toNat = w.toNat % 2 ^ 16 := by
  simp [fieldD, ibm_eq_div_mod]

theorem fieldXo_eq_div (w : Word) : fieldXo w = w.toNat / 2 % 1024 := by
  simp [fieldXo, ibm_eq_div_mod]

theorem fieldRc_eq_mod (w : Word) : fieldRc w = w.toNat % 2 := by
  simp [fieldRc, ibm_eq_div_mod]

/-- R62: the D form's fields are the digits of its word. -/
theorem toNat_eq_formD_iff (w : Word) (op : Nat) (rt ra : RegNum) (d : BitVec 16) (ho : op < 64) :
    w.toNat = op * 2 ^ 26 + rt.val * 2 ^ 21 + ra.val * 2 ^ 16 + d.toNat ↔
      fieldOpcd w = op ∧ fieldRt w = rt ∧ fieldRa w = ra ∧ fieldD w = d := by
  rw [fieldOpcd_eq_div, Fin.ext_iff, fieldRt_val, Fin.ext_iff, fieldRa_val, ← BitVec.toNat_inj, fieldD_toNat]
  omega

/-- R63: the X form's fields are the digits of its word. -/
theorem toNat_eq_formX_iff (w : Word) (xo : Nat) (rt ra rb : RegNum) (hx : xo < 1024) :
    w.toNat = 31 * 2 ^ 26 + rt.val * 2 ^ 21 + ra.val * 2 ^ 16 + rb.val * 2 ^ 11 + xo * 2 ↔
      (fieldOpcd w = 31 ∧ fieldXo w = xo ∧ fieldRc w = 0) ∧ fieldRt w = rt ∧ fieldRa w = ra ∧ fieldRb w = rb := by
  rw [fieldOpcd_eq_div, fieldXo_eq_div, fieldRc_eq_mod, Fin.ext_iff, fieldRt_val, Fin.ext_iff, fieldRa_val, Fin.ext_iff,
    fieldRb_val]
  omega

/-! ### What the decoder answers, by the fields -/

theorem decode_eq_lwz_iff (w : Word) (rt ra : RegNum) (d : BitVec 16) :
    decode w = .ok (.lwz rt ra d) ↔ fieldOpcd w = 32 ∧ fieldRt w = rt ∧ fieldRa w = ra ∧ fieldD w = d := by
  unfold decode
  split_ifs <;> simp_all

theorem decode_eq_lwzu_iff (w : Word) (rt ra : RegNum) (d : BitVec 16) :
    decode w = .ok (.lwzu rt ra d) ↔ fieldOpcd w = 33 ∧ fieldRt w = rt ∧ fieldRa w = ra ∧ fieldD w = d := by
  unfold decode
  split_ifs <;> simp_all

theorem decode_eq_lwzux_iff (w : Word) (rt ra rb : RegNum) :
    decode w = .ok (.lwzux rt ra rb) ↔
      (fieldOpcd w = 31 ∧ fieldXo w = 55 ∧ fieldRc w = 0) ∧ fieldRt w = rt ∧ fieldRa w = ra ∧ fieldRb w = rb := by
  unfold decode
  split_ifs <;> simp_all

theorem decode_eq_lwzx_iff (w : Word) (rt ra rb : RegNum) :
    decode w = .ok (.lwzx rt ra rb) ↔
      (fieldOpcd w = 31 ∧ fieldXo w = 23 ∧ fieldRc w = 0) ∧ fieldRt w = rt ∧ fieldRa w = ra ∧ fieldRb w = rb := by
  unfold decode
  split_ifs <;> simp_all

/-- R68: the reserved bit is the one reason an X-form word of the family has. -/
theorem decode_reservedBitSet_iff (w : Word) :
    decode w = .error (.reservedBitSet w) ↔
      fieldOpcd w = 31 ∧ (fieldXo w = 23 ∨ fieldXo w = 55) ∧ fieldRc w ≠ 0 := by
  unfold decode
  split_ifs <;> simp_all
  tauto

/-- R70: any other word is out of scope, whatever bit 31 of an X-form word. -/
theorem decode_notInScope_iff (w : Word) :
    decode w = .error (.notInScope w) ↔
      fieldOpcd w ≠ 32 ∧ fieldOpcd w ≠ 33 ∧ ¬(fieldOpcd w = 31 ∧ (fieldXo w = 23 ∨ fieldXo w = 55)) := by
  unfold decode
  split_ifs <;> simp_all

theorem decode_error_cases {w : Word} {r : Reject} (h : decode w = .error r) :
    r = .reservedBitSet w ∨ r = .notInScope w := by
  unfold decode at h
  split_ifs at h <;> simp_all

/-! ### The round trip -/

/-- R67: a word is the word of an instruction exactly when its fields are the opcode and the operands. -/
theorem decode_eq_ok_iff (w : Word) (i : Instr) : decode w = .ok i ↔ w = encode i := by
  rw [← BitVec.toNat_inj]
  cases i with
  | lwz rt ra d => rw [decode_eq_lwz_iff, encode, encodeD_toNat .lwz 32 rfl (by decide), toNat_eq_formD_iff _ _ _ _ _ (by decide)]
  | lwzu rt ra d =>
    rw [decode_eq_lwzu_iff, encode, encodeD_toNat .lwzu 33 rfl (by decide), toNat_eq_formD_iff _ _ _ _ _ (by decide)]
  | lwzux rt ra rb =>
    rw [decode_eq_lwzux_iff, encode, encodeX_toNat .lwzux 55 rfl (by decide), toNat_eq_formX_iff _ _ _ _ _ (by decide)]
  | lwzx rt ra rb =>
    rw [decode_eq_lwzx_iff, encode, encodeX_toNat .lwzx 23 rfl (by decide), toNat_eq_formX_iff _ _ _ _ _ (by decide)]

/-- Settles O1: a word decodes to the instruction whose word it is. -/
theorem encodedInstructionDecodesBack : Obligations.EncodedInstructionDecodesBack :=
  fun i => (decode_eq_ok_iff (encode i) i).mpr rfl

/-- Settles O3: the same equivalence read the other way. -/
theorem decodedWordEncodesBack : Obligations.DecodedWordEncodesBack :=
  fun w i h => ((decode_eq_ok_iff w i).mp h).symm

/-! ### Words as bytes -/

/-- R41, R54: the four bytes of a word, put together again, are the word. -/
theorem wordOfBytes_bytes (w : Word) :
    wordOfBytes (w.extractLsb' 24 8) (w.extractLsb' 16 8) (w.extractLsb' 8 8) (w.extractLsb' 0 8) = w := by
  apply BitVec.eq_of_toNat_eq
  simp only [wordOfBytes_eq_append, toNat_append_eq_add, BitVec.extractLsb'_toNat, Nat.shiftRight_eq_div_pow]
  omega

/-- R54: the bytes of a word that decodes, with whatever follows them. -/
theorem decodeBytes_bytesOfWord {w : Word} {i : Instr} (h : decode w = .ok i) (rest : List Byte) :
    decodeBytes (bytesOfWord w ++ rest) = .ok (i, rest) := by
  simp only [bytesOfWord, List.cons_append, List.nil_append, decodeBytes, wordOfBytes_bytes, h]

/-- Settles O2: the bytes put together are the encoded word, which decodes back. -/
theorem instructionBytesDecodeBack : Obligations.InstructionBytesDecodeBack := by
  intro i rest
  have hdec : decode (encode i) = .ok i := encodedInstructionDecodesBack i
  refine ⟨decodeBytes_bytesOfWord hdec rest, ?_⟩
  have hbytes := decodeBytes_bytesOfWord hdec []
  rw [List.append_nil] at hbytes
  have hword : BitVec.ofNat 32 ((encode i).toNat % 2 ^ 32) = encode i := by
    rw [Nat.mod_eq_of_lt (encode i).isLt, BitVec.ofNat_toNat, BitVec.setWidth_eq]
  rw [decodeTableWord, hword, hbytes]

/-- Settles O8, by induction on the words: the first four bytes make the first word. -/
theorem textBytesAreItsWords : Obligations.TextBytesAreItsWords := by
  intro ws
  induction ws with
  | nil => rfl
  | cons w ws ih =>
    simp only [List.flatMap_cons, bytesOfWord, List.cons_append, List.nil_append, wordsOfBytes, wordOfBytes_bytes]
    exact congrArg (w :: ·) ih

/-! ### Words as concatenations of their fields -/

theorem encodeD_eq_append (m : Mnemonic) (op : BitVec 6) (hm : matchWord m = BitVec.ofNat 32 (op.toNat * 2 ^ 26))
    (rt ra : RegNum) (d : BitVec 16) :
    encodeD m rt ra d = op ++ BitVec.ofNat 5 rt ++ BitVec.ofNat 5 ra ++ d := by
  apply BitVec.eq_of_toNat_eq
  rw [encodeD_toNat m op.toNat hm op.isLt]
  simp only [toNat_append_eq_add, BitVec.toNat_ofNat]
  omega

theorem encodeX_eq_append (m : Mnemonic) (xo : BitVec 10) (hm : matchWord m = BitVec.ofNat 32 (31 * 2 ^ 26 + xo.toNat * 2))
    (rt ra rb : RegNum) :
    encodeX m rt ra rb = 31#6 ++ BitVec.ofNat 5 rt ++ BitVec.ofNat 5 ra ++ BitVec.ofNat 5 rb ++ xo ++ 0#1 := by
  apply BitVec.eq_of_toNat_eq
  rw [encodeX_toNat m xo.toNat hm xo.isLt]
  simp only [toNat_append_eq_add, BitVec.toNat_ofNat]
  omega

/-- Settles O7: a field is the number of its bits, and the encoder's word has the digits of the concatenation. -/
theorem fieldsStandAtTheirBits : Obligations.FieldsStandAtTheirBits := by
  refine ⟨fun w => ⟨ibm_eq_extractLsb' w 0 5, ?_, ?_, ?_, ?_, ibm_eq_extractLsb' w 21 30, ibm_eq_extractLsb' w 31 31⟩,
    fun rt ra d => ⟨encodeD_eq_append .lwz 32 rfl rt ra d, encodeD_eq_append .lwzu 33 rfl rt ra d⟩,
    fun rt ra rb => ⟨encodeX_eq_append .lwzux 55 rfl rt ra rb, encodeX_eq_append .lwzx 23 rfl rt ra rb⟩⟩
  · rw [fieldRt_val, BitVec.extractLsb'_toNat, Nat.shiftRight_eq_div_pow]
  · rw [fieldRa_val, BitVec.extractLsb'_toNat, Nat.shiftRight_eq_div_pow]
  · apply BitVec.eq_of_toNat_eq
    rw [fieldD_toNat, BitVec.extractLsb'_toNat, Nat.shiftRight_zero]
  · rw [fieldRb_val, BitVec.extractLsb'_toNat, Nat.shiftRight_eq_div_pow]

/-! ### The masks of R66 -/

/-- Concatenations of the same widths are equal exactly when their parts are. -/
theorem append_eq_append_iff {m n : Nat} (x x' : BitVec m) (y y' : BitVec n) : x ++ y = x' ++ y' ↔ x = x' ∧ y = y' := by
  constructor
  · intro h
    have hx := congrArg (BitVec.extractLsb' n m) h
    have hy := congrArg (BitVec.extractLsb' 0 n) h
    rw [BitVec.extractLsb'_append_eq_left, BitVec.extractLsb'_append_eq_left] at hx
    rw [BitVec.extractLsb'_append_eq_right, BitVec.extractLsb'_append_eq_right] at hy
    exact ⟨hx, hy⟩
  · rintro ⟨rfl, rfl⟩
    rfl

/-- A word is its `OPCD`, the 26 bits below it being any. -/
theorem word_eq_append_D (w : Word) : w = w.extractLsb' 26 6 ++ w.extractLsb' 0 26 :=
  (BitVec.extractLsb'_append_extractLsb' (w := 6) (len := 26) (x := w)).symm

/-- A word is its `OPCD`, the 15 operand bits of the X form, its `XO` and its `Rc`. -/
theorem word_eq_append_X (w : Word) :
    w = w.extractLsb' 26 6 ++ w.extractLsb' 11 15 ++ w.extractLsb' 1 10 ++ w.extractLsb' 0 1 := by
  apply BitVec.eq_of_toNat_eq
  simp only [toNat_append_eq_add, BitVec.extractLsb'_toNat, Nat.shiftRight_eq_div_pow]
  omega

/-- R66: the D form's mask keeps `OPCD`. -/
theorem and_maskD_eq_iff (w : Word) (op : BitVec 6) :
    w &&& 0xFC000000 = op ++ 0#26 ↔ fieldOpcd w = op.toNat := by
  have hmask : (0xFC000000 : Word) = BitVec.allOnes 6 ++ 0#26 := by decide
  have hf : fieldOpcd w = (w.extractLsb' 26 6).toNat := ibm_eq_extractLsb' w 0 5
  rw [hf, BitVec.toNat_inj, hmask]
  conv_lhs => rw [word_eq_append_D w]
  rw [BitVec.and_append, append_eq_append_iff, BitVec.and_allOnes, BitVec.and_zero]
  exact and_iff_left rfl

/-- R66: a mask that keeps `OPCD` and `XO`, with `Rc` kept or not. -/
theorem and_maskX_eq_iff (w : Word) (op : BitVec 6) (xo : BitVec 10) (keep rc : BitVec 1) :
    w &&& (BitVec.allOnes 6 ++ 0#15 ++ BitVec.allOnes 10 ++ keep) = op ++ 0#15 ++ xo ++ rc ↔
      fieldOpcd w = op.toNat ∧ fieldXo w = xo.toNat ∧ w.extractLsb' 0 1 &&& keep = rc := by
  have hop : fieldOpcd w = (w.extractLsb' 26 6).toNat := ibm_eq_extractLsb' w 0 5
  have hxo : fieldXo w = (w.extractLsb' 1 10).toNat := ibm_eq_extractLsb' w 21 30
  rw [hop, hxo, BitVec.toNat_inj, BitVec.toNat_inj]
  conv_lhs => rw [word_eq_append_X w]
  rw [BitVec.and_append, BitVec.and_append, BitVec.and_append, append_eq_append_iff, append_eq_append_iff,
    append_eq_append_iff, BitVec.and_allOnes, BitVec.and_zero, BitVec.and_allOnes]
  simp only [and_true, and_assoc]

/-- R66: a mask that keeps `Rc` as well. -/
theorem and_maskX_keepRc_eq_iff (w : Word) (op : BitVec 6) (xo : BitVec 10) (rc : BitVec 1) :
    w &&& (BitVec.allOnes 6 ++ 0#15 ++ BitVec.allOnes 10 ++ BitVec.allOnes 1) = op ++ 0#15 ++ xo ++ rc ↔
      fieldOpcd w = op.toNat ∧ fieldXo w = xo.toNat ∧ fieldRc w = rc.toNat := by
  have hrc : fieldRc w = (w.extractLsb' 0 1).toNat := ibm_eq_extractLsb' w 31 31
  rw [and_maskX_eq_iff, BitVec.and_allOnes, hrc, BitVec.toNat_inj]

/-- R66: what a row of the opcode map says of a word's fields. -/
def RowFields : Mnemonic → Word → Prop
  | .lwz, w => fieldOpcd w = 32
  | .lwzu, w => fieldOpcd w = 33
  | .lwzux, w => fieldOpcd w = 31 ∧ fieldXo w = 55 ∧ fieldRc w = 0
  | .lwzx, w => fieldOpcd w = 31 ∧ fieldXo w = 23 ∧ fieldRc w = 0

/-- R66: the mask and the opcode word of a row say what its fields are. -/
theorem and_maskWord_eq_iff (m : Mnemonic) (w : Word) : w &&& maskWord m = matchWord m ↔ RowFields m w := by
  cases m with
  | lwz => exact and_maskD_eq_iff w 32
  | lwzu => exact and_maskD_eq_iff w 33
  | lwzux => exact and_maskX_keepRc_eq_iff w 31 55 0
  | lwzx => exact and_maskX_keepRc_eq_iff w 31 23 0

theorem exists_decode_of_rowFields {m : Mnemonic} {w : Word} (h : RowFields m w) :
    ∃ i, decode w = .ok i ∧ i.mnemonic = m := by
  cases m with
  | lwz => exact ⟨_, (decode_eq_lwz_iff w _ _ _).mpr ⟨h, rfl, rfl, rfl⟩, rfl⟩
  | lwzu => exact ⟨_, (decode_eq_lwzu_iff w _ _ _).mpr ⟨h, rfl, rfl, rfl⟩, rfl⟩
  | lwzux => exact ⟨_, (decode_eq_lwzux_iff w _ _ _).mpr ⟨h, rfl, rfl, rfl⟩, rfl⟩
  | lwzx => exact ⟨_, (decode_eq_lwzx_iff w _ _ _).mpr ⟨h, rfl, rfl, rfl⟩, rfl⟩

/-- R66: a word of two rows would decode to two instructions. -/
theorem rowFields_unique {m m' : Mnemonic} {w : Word} (h : RowFields m w) (h' : RowFields m' w) : m = m' := by
  obtain ⟨i, hi, rfl⟩ := exists_decode_of_rowFields h
  obtain ⟨i', hi', rfl⟩ := exists_decode_of_rowFields h'
  rw [Except.ok.inj (hi.symm.trans hi')]

/-- Settles O4: mask and opcode word of a row say what its fields are, and the fields are what the decoder looks at. -/
theorem decoderFollowsTheOpcodeMap : Obligations.DecoderFollowsTheOpcodeMap := by
  intro w
  have hlwz := and_maskWord_eq_iff .lwz w
  have hlwzu := and_maskWord_eq_iff .lwzu w
  have hlwzux := and_maskWord_eq_iff .lwzux w
  have hlwzx := and_maskWord_eq_iff .lwzx w
  refine ⟨⟨hlwz.trans ?_, hlwzu.trans ?_, hlwzux.trans ?_, hlwzx.trans ?_⟩, ⟨hlwz, hlwzu, hlwzux, hlwzx⟩,
    fun m m' h h' => rowFields_unique ((and_maskWord_eq_iff m w).mp h) ((and_maskWord_eq_iff m' w).mp h')⟩
  · simp [RowFields, decode_eq_lwz_iff]
  · simp [RowFields, decode_eq_lwzu_iff]
  · simp [RowFields, decode_eq_lwzux_iff]
  · simp [RowFields, decode_eq_lwzx_iff]

/-- R68: the opcode words of the X form with bit 31 set. -/
theorem and_maskX_reserved_iff (w : Word) (xo : BitVec 10) :
    w &&& 0xFC0007FF = 31#6 ++ 0#15 ++ xo ++ 1#1 ↔ fieldOpcd w = 31 ∧ fieldXo w = xo.toNat ∧ fieldRc w ≠ 0 := by
  have hbit : fieldRc w ≠ 0 ↔ fieldRc w = 1 := by rw [fieldRc_eq_mod]; omega
  rw [hbit]
  exact and_maskX_keepRc_eq_iff w 31 xo 1

/-- R68, R70: the opcode words of the X form whatever bit 31. -/
theorem and_maskX_anyRc_iff (w : Word) (xo : BitVec 10) :
    w &&& 0xFC0007FE = 31#6 ++ 0#15 ++ xo ++ 0#1 ↔ fieldOpcd w = 31 ∧ fieldXo w = xo.toNat := by
  have h := and_maskX_eq_iff w 31 xo 0#1 0#1
  rw [BitVec.and_zero, and_iff_left rfl] at h
  exact h

/-- Settles O5: the masks say what the fields are, with bit 31 set for the first reason and left out for the second. -/
theorem decoderRefusesWithItsReason : Obligations.DecoderRefusesWithItsReason := by
  intro w
  refine ⟨?_, ?_, fun r => decode_error_cases⟩
  · have h55 : w &&& 0xFC0007FF = 0x7C00006F ↔ fieldOpcd w = 31 ∧ fieldXo w = 55 ∧ fieldRc w ≠ 0 :=
      and_maskX_reserved_iff w 55
    have h23 : w &&& 0xFC0007FF = 0x7C00002F ↔ fieldOpcd w = 31 ∧ fieldXo w = 23 ∧ fieldRc w ≠ 0 :=
      and_maskX_reserved_iff w 23
    rw [decode_reservedBitSet_iff, h55, h23]
    tauto
  · have h32 : w &&& 0xFC000000 = 0x80000000 ↔ fieldOpcd w = 32 := and_maskWord_eq_iff .lwz w
    have h33 : w &&& 0xFC000000 = 0x84000000 ↔ fieldOpcd w = 33 := and_maskWord_eq_iff .lwzu w
    have h55 : w &&& 0xFC0007FE = 0x7C00006E ↔ fieldOpcd w = 31 ∧ fieldXo w = 55 := and_maskX_anyRc_iff w 55
    have h23 : w &&& 0xFC0007FE = 0x7C00002E ↔ fieldOpcd w = 31 ∧ fieldXo w = 23 := and_maskX_anyRc_iff w 23
    rw [decode_notInScope_iff]
    simp only [ne_eq, h32, h33, h55, h23]
    tauto

/-- Settles O6, by running the decoder on the six words. -/
theorem wordsFromTheSpecDecode : Obligations.WordsFromTheSpecDecode := by
  unfold Obligations.WordsFromTheSpecDecode
  decide

end Sys2Proof
end

section
/-! PROOFS. What a completed load reads and changes (spec/40_load_word_and_zero.md, spec/10_state.md, spec/20_memory.md): its
exact next state, its frame, and what its result depends on. -/

namespace Sys2Proof.Machine

open Sys2Proof.Config

/-! ### The frame of a completed instruction -/

/-- R22, R29, R32: everything a completed instruction leaves alone, and the oracle, which loses the answers of one read. -/
theorem exec_next_frame {i : Instr} {s t : State} (h : exec i s = .next t) :
    t.mem = s.mem ∧ t.mark = s.mark ∧ t.text = s.text ∧ t.admits = s.admits ∧ t.raUpdateMode = s.raUpdateMode ∧
      ∃ a, t.oracle = s.oracle.drop (readEvents a) := by
  obtain ⟨-, -, b, o, w, -, -, -, rfl⟩ := (exec_next_iff i s t).mp h
  exact ⟨completeLoad_mem .., completeLoad_mark .., completeLoad_text .., completeLoad_admits ..,
    completeLoad_raUpdateMode .., effAddr (addressSum b o), completeLoad_oracle ..⟩

/-- R47: a load is one read event or four. -/
theorem readEvents_eq_one_or_four (a : Addr) : readEvents a = 1 ∨ readEvents a = 4 := by
  unfold readEvents
  split
  · exact .inl rfl
  · exact .inr rfl

/-- R47: alignment is that of the sum, whose low half the address is. -/
theorem readEvents_effAddr (sum : DWord) : readEvents (effAddr sum) = if sum.toNat % 4 = 0 then 1 else 4 := by
  have hmod : (effAddr sum).toNat % 4 = sum.toNat % 4 := by
    rw [effAddr, BitVec.toNat_setWidth]
    omega
  rw [readEvents, hmod]

/-- R22, R29: a completed instruction keeps all but the registers it writes, `pc` and the oracle, which loses one answer or
four. -/
theorem exec_next_keeps {i : Instr} {s t : State} (h : exec i s = .next t) :
    (∀ r : RegNum, r ∉ regsWritten i → t.x[r] = s.x[r]) ∧ (∀ a, t.mem.read a = s.mem.read a) ∧ t.mem = s.mem ∧
      t.mark = s.mark ∧ t.text = s.text ∧ t.admits = s.admits ∧ t.raUpdateMode = s.raUpdateMode ∧
      (t.oracle = s.oracle.drop 1 ∨ t.oracle = s.oracle.drop 4) := by
  obtain ⟨hmem, hmark, htext, hadmits, hmode, a, horacle⟩ := exec_next_frame h
  refine ⟨fun r => exec_next_x_of_notMem h, fun a => by rw [hmem], hmem, hmark, htext, hadmits, hmode, ?_⟩
  rcases readEvents_eq_one_or_four a with ha | ha
  · exact .inl (ha ▸ horacle)
  · exact .inr (ha ▸ horacle)

/-- Settles O23, from the frame of a completed instruction: these forms write `RT` alone. -/
theorem plainLoadsChangeOnlyTheirDestination : Obligations.PlainLoadsChangeOnlyTheirDestination := by
  intro rt ra rb d s t h
  obtain ⟨i, hwritten, hexec⟩ : ∃ i, regsWritten i = [rt] ∧ exec i s = .next t := by
    rcases h with h | h
    · exact ⟨_, rfl, h⟩
    · exact ⟨_, rfl, h⟩
  obtain ⟨hx, hrest⟩ := exec_next_keeps hexec
  exact ⟨fun r hr => hx r (by simpa [hwritten] using hr), hrest⟩

/-- Settles O24, from the frame of a completed instruction: these forms write `RT` and `RA`. -/
theorem updateLoadsChangeOnlyDestinationAndBase : Obligations.UpdateLoadsChangeOnlyDestinationAndBase := by
  intro rt ra rb d s t h
  obtain ⟨i, hwritten, hexec⟩ : ∃ i, regsWritten i = [rt, ra] ∧ exec i s = .next t := by
    rcases h with h | h
    · exact ⟨_, rfl, h⟩
    · exact ⟨_, rfl, h⟩
  obtain ⟨hx, hrest⟩ := exec_next_keeps hexec
  exact ⟨fun r hrt hra => hx r (by simpa [hwritten] using ⟨hrt, hra⟩), hrest⟩

/-! ### The address -/

/-- R90, R98: truncation to 32 bits commutes with addition. -/
theorem effAddr_addressSum (base off : DWord) :
    effAddr (addressSum base off) = base.setWidth 32 + off.setWidth 32 :=
  BitVec.setWidth_add base off (by decide)

/-- Settles O10. -/
theorem effectiveAddressIsTheSumOfLowHalves : Obligations.EffectiveAddressIsTheSumOfLowHalves :=
  effAddr_addressSum

/-! ### The exact next state of the four loads -/

theorem baseRA0_ok_iff (s : State) (ra : RegNum) (v : DWord) :
    baseRA0 s ra = .ok v ↔ if ra = 0 then v = 0 else s.x[ra] = some v := by
  unfold baseRA0
  split
  · rw [Except.ok.injEq, eq_comm]
  · exact readReg_ok_iff s ra v

/-- R92: the two update modes as one condition. -/
theorem upd_eq_ite (mode : RaUpdateMode) (sum : DWord) :
    upd mode sum = if mode = .low32 then (sum.setWidth 32).setWidth 64 else sum := by
  cases mode <;> rfl

/-- R94, R97: the next state of a load that writes no base back. -/
theorem completeLoad_none_eq (s : State) (rt : RegNum) (sum : DWord) (w : Word) :
    completeLoad s rt none sum w = { s with
      x := s.x.set rt (some (0#32 ++ w))
      pc := s.pc + 4
      oracle := s.oracle.drop (if sum.toNat % 4 = 0 then 1 else 4) } := by
  rw [← readEvents_effAddr, ← zext64_eq_append]
  rfl

/-- R95, R96: the next state of a load that writes its base back, after its destination. -/
theorem completeLoad_some_eq (s : State) (rt ra : RegNum) (sum : DWord) (w : Word) :
    completeLoad s rt (some ra) sum w = { s with
      x := (s.x.set rt (some (0#32 ++ w))).set ra
        (some (if s.raUpdateMode = .low32 then (sum.setWidth 32).setWidth 64 else sum))
      pc := s.pc + 4
      oracle := s.oracle.drop (if sum.toNat % 4 = 0 then 1 else 4) } := by
  rw [← readEvents_effAddr, ← zext64_eq_append, ← upd_eq_ite]
  rfl

/-- R69: the valid update forms. -/
theorem lwzu_wellFormed {rt ra : RegNum} (d : BitVec 16) (h0 : ra ≠ 0) (hrt : ra ≠ rt) :
    (Instr.lwzu rt ra d).wellFormed = true := by
  simp [Instr.wellFormed, baseIsNotZero, baseIsNotTarget, h0, hrt]

theorem lwzux_wellFormed {rt ra : RegNum} (rb : RegNum) (h0 : ra ≠ 0) (hrt : ra ≠ rt) :
    (Instr.lwzux rt ra rb).wellFormed = true := by
  simp [Instr.wellFormed, baseIsNotZero, baseIsNotTarget, h0, hrt]

/-- Settles O18: the operands have values and the word can be read, so the load completes. -/
theorem lwzCompletesWithTheLoadedWord : Obligations.LwzCompletesWithTheLoadedWord := by
  intro rt ra d s base b0 b1 b2 b3 hpc hbase hsees
  rw [exec_completes (i := .lwz rt ra d) rfl hpc ((baseRA0_ok_iff s ra base).mpr hbase) rfl (memRead_of_seesBytes hsees)]
  exact congrArg _ (completeLoad_none_eq s rt _ _)

/-- Settles O19, as for `lwz`, with the base written back. -/
theorem lwzuCompletesWithTheLoadedWordAndAddress : Obligations.LwzuCompletesWithTheLoadedWordAndAddress := by
  intro rt ra d s base b0 b1 b2 b3 h0 hrt hpc hbase hsees
  rw [exec_completes (lwzu_wellFormed d h0 hrt) hpc ((readReg_ok_iff s ra base).mpr hbase) rfl
    (memRead_of_seesBytes hsees)]
  exact congrArg _ (completeLoad_some_eq s rt ra _ _)

/-- Settles O20, as for `lwzu`, with the index register as the offset. -/
theorem lwzuxCompletesWithTheLoadedWordAndAddress : Obligations.LwzuxCompletesWithTheLoadedWordAndAddress := by
  intro rt ra rb s base index b0 b1 b2 b3 h0 hrt hpc hbase hindex hsees
  rw [exec_completes (lwzux_wellFormed rb h0 hrt) hpc ((readReg_ok_iff s ra base).mpr hbase)
    ((readReg_ok_iff s rb index).mpr hindex) (memRead_of_seesBytes hsees)]
  exact congrArg _ (completeLoad_some_eq s rt ra _ _)

/-- Settles O21, as for `lwz`, with the index register as the offset. -/
theorem lwzxCompletesWithTheLoadedWord : Obligations.LwzxCompletesWithTheLoadedWord := by
  intro rt ra rb s base index b0 b1 b2 b3 hpc hbase hindex hsees
  rw [exec_completes (i := .lwzx rt ra rb) rfl hpc ((baseRA0_ok_iff s ra base).mpr hbase)
    ((readReg_ok_iff s rb index).mpr hindex) (memRead_of_seesBytes hsees)]
  exact congrArg _ (completeLoad_none_eq s rt _ _)

/-! ### The base written back -/

/-- R92: an update form leaves the address in its base. -/
theorem completeLoad_x_update (s : State) (rt ra : RegNum) (sum : DWord) (w : Word) :
    (completeLoad s rt (some ra) sum w).x[ra] = some (upd s.raUpdateMode sum) := by
  simp [completeLoad_x_some]

/-- R92: the low half of what is written back is the effective address in both modes. -/
theorem extractLsb'_upd_low (mode : RaUpdateMode) (sum : DWord) :
    (upd mode sum).extractLsb' 0 32 = sum.extractLsb' 0 32 := by
  cases mode with
  | low32 => exact (extractLsb'_zext64_low _).trans (BitVec.setWidth_eq_extractLsb' (by decide))
  | full64 => rfl

/-- Settles O26: the base holds `upd` of the sum, whose low half is the address in both modes. -/
theorem updateFormsWriteTheAddressBack : Obligations.UpdateFormsWriteTheAddressBack := by
  intro rt ra rb d i s t hi h
  have hu : updateOf i = some ra := by rcases hi with rfl | rfl <;> rfl
  obtain ⟨-, -, base, off, w, hbase, hoff, -, rfl⟩ := (exec_next_iff i s t).mp h
  refine ⟨base, off, upd s.raUpdateMode (addressSum base off), hbase, hoff, ?_, extractLsb'_upd_low _ _,
    fun hlow => ?_, fun hfull => ?_⟩
  · rw [hu, completeLoad_x_update]
  · rw [hlow]
    exact extractLsb'_zext64_high _
  · rw [hfull]
    rfl

/-- Settles O27: where the index holds the sign-extended displacement, both forms hand the same sum to the shared load. -/
theorem displacementAndIndexLoadsAgree : Obligations.DisplacementAndIndexLoadsAgree := by
  intro rt ra rb d s hx
  have hoff : offsetRB s rb = offsetD d := (readReg_ok_iff s rb _).mpr hx
  refine ⟨?_, fun h0 hrt => ?_⟩
  · simp only [exec, execLwz, execLwzx, hoff]
  · rw [exec_eq_load, exec_eq_load, lwzu_wellFormed d h0 hrt, lwzux_wellFormed rb h0 hrt]
    simp only [if_true, targetOf, updateOf, baseOf, offsetOf, hoff]

/-! ### What a read depends on -/

/-- R51: what another agent answers comes before memory. -/
theorem byteSeen_eq_or (s : State) (event addr : Nat) :
    byteSeen s event addr = (Memory.read (s.oracle.getD event []) addr).or (s.mem.read addr) := by
  unfold byteSeen
  split <;> rename_i h <;> rw [h] <;> rfl

theorem eventOfByte_aligned {a : Addr} (h : a.toNat % 4 = 0) (k : Nat) : eventOfByte a k = 0 := if_pos h

theorem eventOfByte_misaligned {a : Addr} (h : a.toNat % 4 ≠ 0) (k : Nat) : eventOfByte a k = k := if_neg h

/-- R42: `MemRead` depends on the state only through the admitted ranges and the bytes its own events see. -/
theorem memRead_congr {s s' : State} {a : Addr} (hadmits : s'.admits = s.admits)
    (hseen : ∀ k < 4, byteSeen s' (eventOfByte a k) (a.toNat + k) = byteSeen s (eventOfByte a k) (a.toNat + k)) :
    memRead s' a = memRead s a := by
  have hbyte : ∀ k < 4, loadByte s' a k = loadByte s a k := fun k hk => by rw [loadByte, loadByte, hseen k hk]
  have hword : loadWord s' a = loadWord s a := by
    rw [loadWord, loadWord, hbyte 0 (by decide), hbyte 1 (by decide), hbyte 2 (by decide), hbyte 3 (by decide)]
  rw [memRead, memRead, hadmits, hword]

/-- R51: `MemRead` depends on the oracle only through the answers to its own events. -/
theorem memRead_oracle_congr {s : State} {a : Addr} {o : List (List Host.Cell)}
    (ho : ∀ k < 4, o.getD (eventOfByte a k) [] = s.oracle.getD (eventOfByte a k) []) :
    memRead { s with oracle := o } a = memRead s a :=
  memRead_congr rfl fun k hk => by rw [byteSeen_eq_or, byteSeen_eq_or, ho k hk]

/-- Settles O16: each byte of the word read is what its own event sees, so a read depends on its own events' answers. -/
theorem readsDependOnTheirOwnReadEvents : Obligations.ReadsDependOnTheirOwnReadEvents := by
  refine ⟨fun s a w h => ⟨fun ha k hk => ?_, fun ha k hk => ?_⟩, byteSeen_eq_or, fun s a o ha ho => ?_,
    fun s a o ho => ?_, fun s event event' addr hs => ?_⟩
  · rw [← eventOfByte_aligned ha k]
    exact byteSeen_of_memRead h hk
  · rw [← byteSeen_of_memRead h hk, eventOfByte_misaligned ha]
  · exact memRead_oracle_congr fun k _ => by rw [eventOfByte_aligned ha, ho]
  · refine memRead_oracle_congr fun k hk => ho _ ?_
    unfold eventOfByte
    split <;> omega
  · rw [byteSeen_singleAgent hs, byteSeen_singleAgent hs]
    exact ⟨rfl, rfl⟩

/-- Settles O17: memory and the admitted ranges are unchanged, and an empty oracle stays empty. -/
theorem readsAreRepeatable : Obligations.ReadsAreRepeatable := by
  intro i s t hs h
  obtain ⟨hmem, -, -, hadmits, -, a, horacle⟩ := exec_next_frame h
  have ht : t.oracle = [] := by rw [horacle, hs, List.drop_nil]
  refine ⟨ht, hmem, fun a => memRead_congr hadmits fun k _ => ?_⟩
  rw [byteSeen_singleAgent ht, byteSeen_singleAgent hs, hmem]

/-! ### Registers with other contents -/

section otherRegisters

variable {i : Instr} {s t : State} {y : Vector (Option DWord) 32} {Rel : DWord → DWord → Prop}

/-- The registers an instruction reads hold, in `y`, values related to those they hold in `s`. -/
def RelatedOn (Rel : DWord → DWord → Prop) (i : Instr) (s : State) (y : Vector (Option DWord) 32) : Prop :=
  ∀ r ∈ regsRead i, ∀ v, s.x[r] = some v → ∃ v', y[r] = some v' ∧ Rel v v'

theorem readReg_related (hy : RelatedOn Rel i s y) {r : RegNum} (hr : r ∈ regsRead i) {v : DWord}
    (hv : readReg s r = .ok v) : ∃ v', readReg { s with x := y } r = .ok v' ∧ Rel v v' := by
  obtain ⟨v', hv', hrel⟩ := hy r hr v ((readReg_ok_iff s r v).mp hv)
  exact ⟨v', (readReg_ok_iff { s with x := y } r v').mpr hv', hrel⟩

theorem baseRA0_related (hrefl : ∀ v, Rel v v) (hy : RelatedOn Rel i s y) {ra : RegNum}
    (hra : ra ≠ 0 → ra ∈ regsRead i) {v : DWord} (hv : baseRA0 s ra = .ok v) :
    ∃ v', baseRA0 { s with x := y } ra = .ok v' ∧ Rel v v' := by
  by_cases h0 : ra = 0
  · subst h0
    exact ⟨v, hv, hrefl v⟩
  · rw [baseRA0, if_neg h0] at hv ⊢
    exact readReg_related hy (hra h0) hv

/-- R22: the base operand is a literal or a register the instruction reads. -/
theorem baseOf_related (hrefl : ∀ v, Rel v v) (hy : RelatedOn Rel i s y) {b : DWord} (hb : baseOf s i = .ok b) :
    ∃ b', baseOf { s with x := y } i = .ok b' ∧ Rel b b' := by
  cases i with
  | lwz rt ra d => exact baseRA0_related hrefl hy (fun h0 => by simp [regsRead, h0]) hb
  | lwzu rt ra d => exact readReg_related hy (by simp [regsRead]) hb
  | lwzux rt ra rb => exact readReg_related hy (by simp [regsRead]) hb
  | lwzx rt ra rb => exact baseRA0_related hrefl hy (fun h0 => by simp [regsRead, h0]) hb

/-- R22: the offset operand is a literal or a register the instruction reads. -/
theorem offsetOf_related (hrefl : ∀ v, Rel v v) (hy : RelatedOn Rel i s y) {o : DWord} (ho : offsetOf s i = .ok o) :
    ∃ o', offsetOf { s with x := y } i = .ok o' ∧ Rel o o' := by
  cases i with
  | lwz rt ra d => exact ⟨o, ho, hrefl o⟩
  | lwzu rt ra d => exact ⟨o, ho, hrefl o⟩
  | lwzux rt ra rb => exact readReg_related hy (by simp [regsRead]) ho
  | lwzx rt ra rb => exact readReg_related hy (by simp only [regsRead]; split <;> simp) ho

/-- R90: where related operands have equal low halves, a completed instruction completes with the other registers too, from the
same address and with the same word. -/
theorem exec_next_related (hrefl : ∀ v, Rel v v) (hlow : ∀ v v', Rel v v' → v.setWidth 32 = v'.setWidth 32)
    (hy : RelatedOn Rel i s y) (h : exec i s = .next t) :
    ∃ b o b' o' w, Rel b b' ∧ Rel o o' ∧ effAddr (addressSum b' o') = effAddr (addressSum b o) ∧
      t = completeLoad s (targetOf i) (updateOf i) (addressSum b o) w ∧
      exec i { s with x := y } =
        .next (completeLoad { s with x := y } (targetOf i) (updateOf i) (addressSum b' o') w) := by
  obtain ⟨hwf, hpc, b, o, w, hb, ho, hread, rfl⟩ := (exec_next_iff i s t).mp h
  obtain ⟨b', hb', hbrel⟩ := baseOf_related hrefl hy hb
  obtain ⟨o', ho', horel⟩ := offsetOf_related hrefl hy ho
  have haddr : effAddr (addressSum b' o') = effAddr (addressSum b o) := by
    rw [effAddr_addressSum, effAddr_addressSum, hlow b b' hbrel, hlow o o' horel]
  exact ⟨b, o, b', o', w, hbrel, horel, haddr, rfl, exec_completes hwf hpc hb' ho' (haddr ▸ hread)⟩

end otherRegisters

/-- A completed load writes the same values whatever the registers held. -/
theorem completeLoad_x_written (s : State) (y : Vector (Option DWord) 32) {rt r : RegNum} {u : Option RegNum}
    (sum : DWord) (w : Word) (hr : r = rt ∨ u = some r) :
    (completeLoad { s with x := y } rt u sum w).x[r] = (completeLoad s rt u sum w).x[r] := by
  by_cases hu : u = some r
  · subst hu
    rw [completeLoad_x_update, completeLoad_x_update]
  · obtain rfl := hr.resolve_right hu
    rw [completeLoad_x_target hu, completeLoad_x_target hu]

/-- Two register values with the same bits 31 to 0. -/
def SameLowHalf (v v' : DWord) : Prop := v.setWidth 32 = v'.setWidth 32

/-- Settles O11: registers with equal low halves give the same address, so the same word is loaded. -/
theorem highHalvesDoNotReachTheAddress : Obligations.HighHalvesDoNotReachTheAddress := by
  intro i s t y hlow h
  have hy : RelatedOn SameLowHalf i s y := by
    intro r _ v hv
    have hr := hlow r
    rw [hv, Option.map_some, Option.map_eq_some_iff] at hr
    obtain ⟨v', hv', he⟩ := hr
    exact ⟨v', hv', he.symm⟩
  obtain ⟨hwf, -⟩ := (exec_next_iff i s t).mp h
  obtain ⟨b, o, b', o', w, -, -, haddr, rfl, hexec⟩ :=
    exec_next_related (Rel := SameLowHalf) (fun _ => rfl) (fun _ _ hrel => hrel) hy h
  refine ⟨_, hexec, ?_, ?_, ?_⟩
  · rw [completeLoad_x_target (updateOf_ne_targetOf hwf), completeLoad_x_target (updateOf_ne_targetOf hwf)]
  · rw [completeLoad_pc, completeLoad_pc]
  · rw [completeLoad_oracle, completeLoad_oracle, haddr]

/-- Settles O13: with equal operands the same sum and word are written. -/
theorem resultDependsOnlyOnTheRegistersRead : Obligations.ResultDependsOnlyOnTheRegistersRead := by
  intro i s t y hsame h
  have hy : RelatedOn Eq i s y := fun r hr v hv => ⟨v, (hsame r hr).trans hv, rfl⟩
  obtain ⟨b, o, _, _, w, rfl, rfl, -, rfl, hexec⟩ :=
    exec_next_related (fun _ => rfl) (fun _ _ => congrArg (BitVec.setWidth 32)) hy h
  refine ⟨_, hexec, fun r hr => completeLoad_x_written s y _ w ((mem_regsWritten_iff i r).mp hr), ?_⟩
  rw [completeLoad_pc, completeLoad_pc]

end Sys2Proof.Machine
end

section
/-! PROOFS. Where an instruction stops (spec/40_load_word_and_zero.md, spec/60_exceptions.md): each check of the shared load with
its reason, and what a fault or a refusal says of the state. -/

namespace Sys2Proof.Machine

open Sys2Proof.Config

/-! ### Refusals -/

/-- R93, stage 2. -/
theorem exec_of_invalid {i : Instr} (s : State) (h : i.wellFormed = false) :
    exec i s = .refused (.invalidForm (encode i)) := by
  simp [exec_eq_load, h]

/-- R25: the shared load refuses at the last word address alone. -/
theorem load_refused_iff (s : State) (rt : RegNum) (u : Option RegNum) (sum : Except Fault DWord) (r : Refusal) :
    load s rt u sum = .refused r ↔ s.pc = lastWordAddr ∧ r = .pcWrap s.pc := by
  unfold load
  by_cases hp : s.pc = lastWordAddr
  · simp [hp, eq_comm]
  · cases sum with
    | error f => simp [hp]
    | ok v => cases hm : memRead s (effAddr v) <;> simp [hp, hm]

/-- R93: the two refusals of an instruction, stage 2 before stage 3. -/
theorem exec_refused_iff (i : Instr) (s : State) (r : Refusal) :
    exec i s = .refused r ↔
      (i.wellFormed = false ∧ r = .invalidForm (encode i)) ∨
        (i.wellFormed = true ∧ s.pc = lastWordAddr ∧ r = .pcWrap s.pc) := by
  cases hwf : i.wellFormed with
  | false => simp [exec_of_invalid s hwf, eq_comm]
  | true => simp [exec_eq_load, hwf, load_refused_iff]

/-- R69: the invalid forms. -/
theorem wellFormed_eq_false_iff (i : Instr) :
    i.wellFormed = false ↔ (∃ rt ra d, i = .lwzu rt ra d ∧ (ra = 0 ∨ ra = rt)) ∨
      ∃ rt ra rb, i = .lwzux rt ra rb ∧ (ra = 0 ∨ ra = rt) := by
  cases i with
  | lwz | lwzx => simp [Instr.wellFormed]
  | lwzu rt ra d | lwzux rt ra d =>
    simp only [Instr.wellFormed, baseIsNotZero, baseIsNotTarget, Bool.and_eq_false_iff, decide_eq_false_iff_not, not_not]
    simp

/-- Settles O28: of the two refusals of an instruction this one is the invalid form's. -/
theorem invalidFormsAreRefused : Obligations.InvalidFormsAreRefused := by
  intro i s w
  rw [exec_refused_iff, ← wellFormed_eq_false_iff]
  simp [and_comm]

/-! ### Faults of `MemRead` -/

/-- R44. -/
theorem memRead_of_wraps (s : State) {a : Addr} (h : lastWordAddr < a) : memRead s a = .error (.loadWraps a) := if_pos h

/-- R45. -/
theorem memRead_of_notAdmitted {s : State} {a : Addr} (h : ¬ lastWordAddr < a)
    (hadmits : ∃ k < 4, admitsByte s.admits (a.toNat + k) = false) : memRead s a = .error (.loadNotAdmitted a) := by
  obtain ⟨k, hk, hno⟩ := hadmits
  have hbytes : ¬ admitsBytes s.admits a.toNat 4 = true := fun hall => by
    have hyes := (admitsBytes_iff _ _ _).mp hall k hk
    rw [hno] at hyes
    exact Bool.false_ne_true hyes
  rw [memRead, if_neg h, if_neg hbytes]

theorem memRead_of_admitted {s : State} {a : Addr} (h : ¬ lastWordAddr < a)
    (hadmits : ∀ k < 4, admitsByte s.admits (a.toNat + k) = true) : memRead s a = loadWord s a := by
  rw [memRead, if_neg h, if_pos ((admitsBytes_iff _ _ _).mpr hadmits)]

/-- R42: the first byte that faults is the fault of the word. -/
theorem loadWord_of_first_error {s : State} {a : Addr} {f : Fault} {k : Nat} (hk : k < 4)
    (hbefore : ∀ j < k, ∃ b, loadByte s a j = .ok b) (herror : loadByte s a k = .error f) : loadWord s a = .error f := by
  match k, hk with
  | 0, _ => simp [loadWord, herror]
  | 1, _ =>
    obtain ⟨b0, h0⟩ := hbefore 0 (by decide)
    simp [loadWord, h0, herror]
  | 2, _ =>
    obtain ⟨b0, h0⟩ := hbefore 0 (by decide)
    obtain ⟨b1, h1⟩ := hbefore 1 (by decide)
    simp [loadWord, h0, h1, herror]
  | 3, _ =>
    obtain ⟨b0, h0⟩ := hbefore 0 (by decide)
    obtain ⟨b1, h1⟩ := hbefore 1 (by decide)
    obtain ⟨b2, h2⟩ := hbefore 2 (by decide)
    simp [loadWord, h0, h1, h2, herror]

/-- R31, R42: the lowest byte without a value is the fault of the word. -/
theorem loadWord_of_first_unwritten {s : State} {a : Addr} {k : Nat} (hk : k < 4)
    (hbefore : ∀ j < k, (byteSeen s (eventOfByte a j) (a.toNat + j)).isSome = true)
    (hnone : byteSeen s (eventOfByte a k) (a.toNat + k) = none) :
    loadWord s a = .error (.unwrittenMemory (a + BitVec.ofNat 32 k)) := by
  refine loadWord_of_first_error hk (fun j hj => ?_) ((loadByte_error_iff s a k _).mpr ⟨hnone, rfl⟩)
  obtain ⟨b, hb⟩ := Option.isSome_iff_exists.mp (hbefore j hj)
  exact ⟨b, (loadByte_ok_iff s a j b).mpr hb⟩

/-- R42: a word that faults has a byte that faults. -/
theorem exists_loadByte_error {s : State} {a : Addr} {f : Fault} (h : loadWord s a = .error f) :
    ∃ k, loadByte s a k = .error f := by
  unfold loadWord at h
  split at h
  case h_1 => cases h
  all_goals
    cases h
    rename_i hbyte
    exact ⟨_, hbyte⟩

/-- R121: `MemRead` never faults for want of a register. -/
theorem memRead_ne_unwrittenRegister (s : State) (a : Addr) (r : RegNum) :
    memRead s a ≠ .error (.unwrittenRegister r) := by
  unfold memRead
  split_ifs
  · simp
  · intro h
    obtain ⟨k, hk⟩ := exists_loadByte_error h
    simpa using (loadByte_error_iff s a k _).mp hk
  · simp

/-! ### Faults of an instruction -/

/-- R93, stages 4 to 6: a valid form faults for want of an operand, or else where its read faults. -/
theorem exec_fault_iff (i : Instr) (s : State) (f : Fault) :
    exec i s = .fault f ↔
      i.wellFormed = true ∧ s.pc ≠ lastWordAddr ∧ (sumOf (baseOf s i) (offsetOf s i) = .error f ∨
        ∃ v, sumOf (baseOf s i) (offsetOf s i) = .ok v ∧ memRead s (effAddr v) = .error f) := by
  rw [exec_eq_load]
  cases hwf : i.wellFormed with
  | false => simp
  | true =>
    unfold load
    by_cases hp : s.pc = lastWordAddr
    · simp [hp]
    · cases hsum : sumOf (baseOf s i) (offsetOf s i) with
      | error g => simp [hp]
      | ok v => cases hm : memRead s (effAddr v) <;> simp [hp, hm]

/-- R93, stages 5 and 6: with its operands given, an instruction faults where its read does. -/
theorem exec_of_memRead_error {i : Instr} {s : State} {b o : DWord} {f : Fault} (hwf : i.wellFormed = true)
    (hpc : s.pc ≠ lastWordAddr) (hb : baseOf s i = .ok b) (ho : offsetOf s i = .ok o)
    (hread : memRead s (effAddr (addressSum b o)) = .error f) : exec i s = .fault f :=
  (exec_fault_iff i s f).mpr ⟨hwf, hpc, .inr ⟨_, (sumOf_ok_iff _ _ _).mpr ⟨b, o, hb, ho, rfl⟩, hread⟩⟩

/-! ### Source registers without a value -/

theorem sumOf_error_iff_of_offset_ok {base : Except Fault DWord} (o : DWord) (f : Fault) :
    sumOf base (.ok o) = .error f ↔ base = .error f := by
  cases base <;> simp [sumOf]

theorem sumOf_error_iff_of_base_ok {off : Except Fault DWord} (b : DWord) (f : Fault) :
    sumOf (.ok b) off = .error f ↔ off = .error f := by
  cases off <;> simp [sumOf]

/-- R124: the first of some registers that holds no value. -/
def firstMissing (s : State) (rs : List RegNum) : Option RegNum := rs.find? fun r => s.x[r].isNone

theorem firstMissing_nil (s : State) : firstMissing s [] = none := rfl

theorem firstMissing_cons_of_none {s : State} {r : RegNum} (h : s.x[r] = none) (rs : List RegNum) :
    firstMissing s (r :: rs) = some r :=
  List.find?_cons_of_pos (Option.isNone_iff_eq_none.mpr h)

theorem firstMissing_cons_of_some {s : State} {r : RegNum} {v : DWord} (h : s.x[r] = some v) (rs : List RegNum) :
    firstMissing s (r :: rs) = firstMissing s rs :=
  List.find?_cons_of_neg (by rw [h]; exact Bool.false_ne_true)

/-- R31: one source register. -/
theorem readReg_error_iff_firstMissing (s : State) (ra : RegNum) (f : Fault) :
    readReg s ra = .error f ↔ ∃ r, firstMissing s [ra] = some r ∧ f = .unwrittenRegister r := by
  rw [readReg_error_iff]
  cases ha : s.x[ra] with
  | none => simp [firstMissing_cons_of_none ha]
  | some v => simp [firstMissing_cons_of_some ha, firstMissing_nil]

/-- R31, R124: two source registers, `RA` before `RB`. -/
theorem sumOf_readReg_error_iff_firstMissing (s : State) (ra rb : RegNum) (f : Fault) :
    sumOf (readReg s ra) (readReg s rb) = .error f ↔
      ∃ r, firstMissing s [ra, rb] = some r ∧ f = .unwrittenRegister r := by
  cases ha : s.x[ra] with
  | none =>
    rw [(readReg_error_iff s ra _).mpr ⟨ha, rfl⟩, firstMissing_cons_of_none ha]
    simp [sumOf, eq_comm (b := f)]
  | some v =>
    rw [(readReg_ok_iff s ra v).mpr ha, sumOf_error_iff_of_base_ok, firstMissing_cons_of_some ha]
    exact readReg_error_iff_firstMissing s rb f

/-- R31, R124: an instruction's sum faults with the first of the registers it reads that holds no value. -/
theorem sumOf_error_iff_firstMissing (i : Instr) (s : State) (f : Fault) :
    sumOf (baseOf s i) (offsetOf s i) = .error f ↔
      ∃ r, firstMissing s (regsRead i) = some r ∧ f = .unwrittenRegister r := by
  cases i with
  | lwz rt ra d =>
    simp only [baseOf, offsetOf, offsetD, regsRead, baseRA0, sumOf_error_iff_of_offset_ok]
    split
    · simp [firstMissing]
    · exact readReg_error_iff_firstMissing s ra f
  | lwzu rt ra d => exact (sumOf_error_iff_of_offset_ok _ f).trans (readReg_error_iff_firstMissing s ra f)
  | lwzux rt ra rb => exact sumOf_readReg_error_iff_firstMissing s ra rb f
  | lwzx rt ra rb =>
    simp only [baseOf, offsetOf, offsetRB, regsRead, baseRA0]
    split
    · exact (sumOf_error_iff_of_base_ok _ f).trans (readReg_error_iff_firstMissing s rb f)
    · exact sumOf_readReg_error_iff_firstMissing s ra rb f

/-- R93, stage 4. -/
theorem exec_of_firstMissing {i : Instr} {s : State} {r : RegNum} (hwf : i.wellFormed = true) (hpc : s.pc ≠ lastWordAddr)
    (hr : firstMissing s (regsRead i) = some r) : exec i s = .fault (.unwrittenRegister r) :=
  (exec_fault_iff i s _).mpr ⟨hwf, hpc, .inl ((sumOf_error_iff_firstMissing i s _).mpr ⟨r, hr, rfl⟩)⟩

/-- R31: an instruction that faults for want of a register's value reads a register that holds none. -/
theorem exists_none_of_unwrittenRegister {i : Instr} {s : State} {r : RegNum}
    (h : exec i s = .fault (.unwrittenRegister r)) : s.x[r] = none := by
  obtain ⟨-, -, hsum | ⟨v, -, hread⟩⟩ := (exec_fault_iff i s _).mp h
  · obtain ⟨r', hr', he⟩ := (sumOf_error_iff_firstMissing i s _).mp hsum
    obtain rfl := Fault.unwrittenRegister.inj he
    exact Option.isNone_iff_eq_none.mp (List.find?_some hr' :)
  · exact absurd hread (memRead_ne_unwrittenRegister s _ r)

/-! ### The order of the checks -/

/-- Settles O29: each check has its equation, under the conditions that let the checks before it pass. -/
theorem checksStopInTheirOrder : Obligations.ChecksStopInTheirOrder := by
  intro i s
  refine ⟨exec_of_invalid s, fun hwf hpc => (exec_refused_iff i s _).mpr (.inr ⟨hwf, hpc, rfl⟩),
    fun hwf hpc => ⟨fun r => exec_of_firstMissing hwf hpc, ?_⟩⟩
  rintro base off hbase hoff ea rfl
  have hfault : ∀ {f}, memRead s ((base + off).setWidth 32) = .error f → exec i s = .fault f :=
    exec_of_memRead_error hwf hpc hbase hoff
  refine ⟨fun hwraps => hfault (memRead_of_wraps s hwraps),
    fun hle hno => hfault (memRead_of_notAdmitted (BitVec.not_lt.mpr hle) hno), fun hle hall k hk hbefore hnone => hfault ?_⟩
  rw [memRead_of_admitted (BitVec.not_lt.mpr hle) hall]
  exact loadWord_of_first_unwritten hk hbefore hnone

end Sys2Proof.Machine
end

section
/-! PROOFS. Steps and runs (spec/70_reset_and_hazards.md, spec/00_scope.md): what a step answers at each `pc`, what it keeps, and
how a well-formed text runs from its base to its end. -/

namespace Sys2Proof.Machine

open Sys2Proof.Config

/-! ### What the fetch answers -/

theorem fetch_of_word {s : State} {k : Nat} {w : Word} (h4 : s.pc.toNat % 4 = 0) (hw : s.text.words[k]? = some w)
    (hpc : s.pc.toNat = s.text.base.toNat + 4 * k) : fetch s = .ok w :=
  (fetch_ok_iff s w).mpr ⟨h4, (wordAt_eq_some_iff _ _ _).mpr ⟨k, hw, hpc⟩⟩

theorem fetch_of_misaligned {s : State} (h4 : s.pc.toNat % 4 ≠ 0) : fetch s = .error (.pcMisaligned s.pc) := if_pos h4

/-- R54: no word stands at an address that is no word's. -/
theorem wordAt_eq_none {t : ProgramText} {pc : Addr} (h : ∀ k < t.words.length, pc.toNat ≠ t.base.toNat + 4 * k) :
    wordAt t pc = none := by
  rw [Option.eq_none_iff_forall_ne_some]
  intro w hw
  obtain ⟨k, hk, hpc⟩ := (wordAt_eq_some_iff t pc w).mp hw
  exact h k (List.getElem?_eq_some_iff.mp hk).1 hpc

theorem fetch_of_end {s : State} (h4 : s.pc.toNat % 4 = 0) (hpc : s.pc.toNat = textEnd s.text) :
    fetch s = .error (.endOfRun s.pc) := by
  have hnone : wordAt s.text s.pc = none := wordAt_eq_none fun k hk => by rw [hpc, textEnd]; omega
  rw [fetch, if_neg (not_not.mpr h4), hnone]
  exact if_pos hpc

theorem fetch_of_outside {s : State} (h4 : s.pc.toNat % 4 = 0)
    (hpc : ∀ k ≤ s.text.words.length, s.pc.toNat ≠ s.text.base.toNat + 4 * k) :
    fetch s = .error (.pcOutsideText s.pc) := by
  rw [fetch, if_neg (not_not.mpr h4), wordAt_eq_none fun k hk => hpc k hk.le]
  exact if_neg (hpc _ le_rfl)

/-- R54: a refusal of the fetch names the `pc`. -/
theorem fetch_error_cases {s : State} {r : Refusal} (h : fetch s = .error r) :
    r = .pcMisaligned s.pc ∨ r = .endOfRun s.pc ∨ r = .pcOutsideText s.pc := by
  unfold fetch at h
  split at h
  · cases h
    exact .inl rfl
  · split at h
    · cases h
    · split at h <;> cases h
      · exact .inr (.inl rfl)
      · exact .inr (.inr rfl)

/-! ### What a step answers -/

theorem step_of_mark {s : State} {m : Mark} (h : s.mark = some m) : step s = resultOfMark m := by
  rw [step, h]

theorem step_of_fetch_error {s : State} {r : Refusal} (hm : s.mark = none) (hf : fetch s = .error r) :
    step s = .refused r := by
  rw [step, hm, hf]

theorem step_of_decode_error {s : State} {w : Word} {r : Reject} (hm : s.mark = none) (hf : fetch s = .ok w)
    (hd : decode w = .error r) : step s = .refused (refusalOfReject w r) := by
  simp only [step, hm, hf, hd]

theorem step_of_decode_ok {s : State} {w : Word} {i : Instr} (hm : s.mark = none) (hf : fetch s = .ok w)
    (hd : decode w = .ok i) : step s = exec i s := by
  simp only [step, hm, hf, hd]

/-- Settles O30: the word at `pc` is the one fetched. -/
theorem stepRunsTheDecodedInstruction : Obligations.StepRunsTheDecodedInstruction :=
  fun _ _ _ _ hm h4 hw hpc hd => step_of_decode_ok hm (fetch_of_word h4 hw hpc) hd

/-- Settles O31: each clause is what the fetch answers there, or the decoder's refusal of the word fetched. -/
theorem fetchStopsWithItsReason : Obligations.FetchStopsWithItsReason := by
  intro s hm
  refine ⟨fun h4 => step_of_fetch_error hm (fetch_of_misaligned h4), fun h4 => ⟨fun k w hw hpc => ?_,
    fun hpc => step_of_fetch_error hm (fetch_of_end h4 hpc), fun hpc => step_of_fetch_error hm (fetch_of_outside h4 hpc)⟩⟩
  have hf := fetch_of_word h4 hw hpc
  exact ⟨step_of_decode_error hm hf, step_of_decode_error hm hf⟩

/-- R9, R93: with no mark, a step that is refused was refused by the fetch, the decoder or the instruction. -/
theorem step_refused_cases {s : State} {r : Refusal} (hm : s.mark = none) (h : step s = .refused r) :
    fetch s = .error r ∨ (∃ w r', decode w = .error r' ∧ r = refusalOfReject w r') ∨ ∃ i, exec i s = .refused r := by
  cases hf : fetch s with
  | error r' =>
    rw [step_of_fetch_error hm hf] at h
    cases h
    exact .inl rfl
  | ok w =>
    cases hd : decode w with
    | error r' =>
      rw [step_of_decode_error hm hf hd] at h
      cases h
      exact .inr (.inl ⟨w, r', hd, rfl⟩)
    | ok i => exact .inr (.inr ⟨i, step_of_decode_ok hm hf hd ▸ h⟩)

/-- R143: with no mark, only the fetch answers the end of the run, and it names the `pc`. -/
theorem step_endOfRun_pc {s : State} {pc : Addr} (hm : s.mark = none) (h : step s = .refused (.endOfRun pc)) :
    pc = s.pc := by
  rcases step_refused_cases hm h with hf | ⟨w, r', -, he⟩ | ⟨i, hi⟩
  · simpa using fetch_error_cases hf
  · cases r' <;> cases he
  · simpa using (exec_refused_iff i s _).mp hi

/-- R31, R93: a step faults only as its instruction does. -/
theorem exec_fault_of_step {s : State} {f : Fault} (hm : s.mark = none) (h : step s = .fault f) :
    ∃ i, exec i s = .fault f := by
  cases hf : fetch s with
  | error r =>
    rw [step_of_fetch_error hm hf] at h
    cases h
  | ok w =>
    cases hd : decode w with
    | error r =>
      rw [step_of_decode_error hm hf hd] at h
      cases h
    | ok i => exact ⟨i, step_of_decode_ok hm hf hd ▸ h⟩

/-! ### What a completed step keeps -/

/-- Settles O35, from the frame of the instruction that the step ran. -/
theorem stepKeepsMemoryAndParameters : Obligations.StepKeepsMemoryAndParameters := by
  intro s t h
  obtain ⟨hm, w, i, -, -, hexec⟩ := (step_next_iff s t).mp h
  obtain ⟨hmem, hmark, htext, hadmits, hmode, a, horacle⟩ := exec_next_frame hexec
  have hfour : readEvents a ≤ 4 := by rcases readEvents_eq_one_or_four a with ha | ha <;> omega
  exact ⟨hmem, htext, hadmits, hmode, hmark.trans hm, readEvents a, hfour, horacle⟩

/-- Settles O32: the fetch does not look at memory, and no completed step changes the text. -/
theorem textIsApartFromMemory : Obligations.TextIsApartFromMemory := by
  refine ⟨fun s m => rfl, fun s t h => ?_⟩
  obtain ⟨-, htext, -⟩ := stepKeepsMemoryAndParameters s t h
  exact htext

/-- R24, R25: a completed step began at a word of the text, not the last of the address space. -/
theorem step_next_pc_at_word {s t : State} (h : step s = .next t) :
    s.pc.toNat % 4 = 0 ∧ s.pc ≠ lastWordAddr ∧ ∃ k < s.text.words.length, s.pc.toNat = s.text.base.toNat + 4 * k := by
  obtain ⟨-, w, i, hfetch, -, hexec⟩ := (step_next_iff s t).mp h
  obtain ⟨h4, hword⟩ := (fetch_ok_iff s w).mp hfetch
  obtain ⟨k, hk, hpc⟩ := (wordAt_eq_some_iff _ _ _).mp hword
  obtain ⟨-, hlast, -⟩ := (exec_next_iff i s t).mp hexec
  exact ⟨h4, hlast, k, (List.getElem?_eq_some_iff.mp hk).1, hpc⟩

/-- Settles O37: memory and text are kept, and `pc` goes from a word of the text to the next or just past the last. -/
theorem stepKeepsRunning : Obligations.StepKeepsRunning := by
  rintro s t ⟨hwf, -⟩ h
  obtain ⟨hmem, htext, -, -, hmark, -⟩ := stepKeepsMemoryAndParameters s t h
  obtain ⟨h4, hlast, k, hk, hpc⟩ := step_next_pc_at_word h
  have hnext : t.pc.toNat = s.pc.toNat + 4 := by rw [step_next_pc h, pc_add_four h4 hlast]
  refine ⟨hmem ▸ hwf, by omega, ⟨k + 1, ?_, ?_⟩, hmark⟩
  · rw [htext]
    exact hk
  · rw [htext]
    omega

/-- R8: a completed load leaves a value in every register that held one. -/
theorem exec_next_x_isSome {i : Instr} {s t : State} (h : exec i s = .next t) (r : RegNum)
    (hr : s.x[r].isSome = true) : t.x[r].isSome = true := by
  obtain ⟨-, -, b, o, w, -, -, -, rfl⟩ := (exec_next_iff i s t).mp h
  by_cases hu : updateOf i = some r
  · rw [hu, completeLoad_x_update]
    rfl
  · by_cases ht : r = targetOf i
    · subst ht
      rw [completeLoad_x_target hu]
      rfl
    · rw [completeLoad_x_of_ne ht hu]
      exact hr

/-- Settles O36: what is written is a value, and only a register without one gives that fault. -/
theorem registersNeverLoseTheirValue : Obligations.RegistersNeverLoseTheirValue := by
  refine ⟨fun s t h => ?_, fun s hall hm r h => ?_⟩
  · obtain ⟨-, w, i, -, -, hexec⟩ := (step_next_iff s t).mp h
    exact exec_next_x_isSome hexec
  · obtain ⟨i, hi⟩ := exec_fault_of_step hm h
    have hr := hall r
    rw [exists_none_of_unwrittenRegister hi] at hr
    exact Bool.false_ne_true hr

/-! ### Stops and marks -/

theorem resultOfMark_ne_next (m : Mark) (t : State) : resultOfMark m ≠ .next t := by
  cases m <;> exact nofun

theorem stopOf_resultOfMark (m : Mark) : stopOf (resultOfMark m) = some m := by
  cases m <;> rfl

/-- R9, R120: recording a mark where it already stands changes nothing. -/
theorem stepMarked_of_mark {s : State} {m : Mark} (h : s.mark = some m) : s.stepMarked = s := by
  rw [State.stepMarked, step_of_mark h]
  cases m with
  | fault f => rw [resultOfMark, State.record_fault, ← h]
  | refused r =>
    rcases State.record_refused s r with hr | hr
    · exact hr
    · rw [resultOfMark, hr, ← h]

theorem runMarked_of_stepMarked_eq {s : State} (h : s.stepMarked = s) (n : Nat) : s.runMarked n = s := by
  induction n with
  | zero => rfl
  | succ n ih => rw [runMarked_succ, h, ih]

/-- Settles O34: a marked state is a fixed point of the marked step. -/
theorem recordedMarkIsNeverCleared : Obligations.RecordedMarkIsNeverCleared := by
  intro s m h
  refine ⟨?_, fun t => ?_, runMarked_of_stepMarked_eq (stepMarked_of_mark h)⟩
  · rw [step_of_mark h, stopOf_resultOfMark]
  · rw [step_of_mark h]
    exact resultOfMark_ne_next m t

/-- R9: with no mark, a stop is recorded unless it is the end of the run. -/
theorem stepMarked_mark_of_stop {s : State} (hm : s.mark = none) (h : ∀ t, step s ≠ .next t) :
    s.stepMarked.mark = stopOf (step s) ∨ (s.stepMarked = s ∧ step s = .refused (.endOfRun s.pc)) := by
  cases hs : step s with
  | next t => exact absurd hs (h t)
  | fault f => exact .inl (by rw [stepMarked_fault hs]; rfl)
  | refused r =>
    cases r with
    | endOfRun pc =>
      obtain rfl := step_endOfRun_pc hm hs
      exact .inr ⟨stepMarked_endOfRun hs, rfl⟩
    | _ => exact .inl (by rw [State.stepMarked, hs]; rfl)

/-- Settles O33: recording changes the mark alone, and records what stopped the step. -/
theorem failedStepChangesNothing : Obligations.FailedStepChangesNothing := by
  intro s h
  refine ⟨stepMarked_of_stop h, ?_⟩
  cases hm : s.mark with
  | none => exact stepMarked_mark_of_stop hm h
  | some m => exact .inl (by rw [stepMarked_of_mark hm, hm, step_of_mark hm, stopOf_resultOfMark])

/-! ### Reset and launch -/

/-- Settles O38: memory and text are empty at reset, `pc` stands just past the text, and every register holds 0. -/
theorem resetIsRunning : Obligations.ResetIsRunning := by
  refine ⟨⟨reset_mem_wf, rfl, ⟨0, le_rfl, rfl⟩, rfl⟩, ?_, rfl⟩
  unfold AllRegsGiven
  decide

/-- Settles O39, each value as `State.reset` states it. -/
theorem resetValues : Obligations.ResetValues :=
  ⟨rfl, fun _ => rfl, fun _ => rfl, rfl, rfl, by decide, rfl, rfl⟩

theorem alignPc_toNat (pc : Addr) : (alignPc pc).toNat = pc.toNat / 4 * 4 := by
  have hlt := pc.isLt
  rw [alignPc, BitVec.toNat_ofNat, Nat.mod_eq_of_lt (by omega)]

theorem alignPc_of_aligned {pc : Addr} (h : pc.toNat % 4 = 0) : alignPc pc = pc := by
  apply BitVec.eq_of_toNat_eq
  rw [alignPc_toNat]
  omega

/-- R54: a word placed at an address stands there. -/
theorem wordAt_placeWord (t : ProgramText) (pc : Addr) (w : Word) : wordAt (placeWord t pc w) pc = some w := by
  rw [wordAt_eq_some_iff, placeWord]
  cases hw : wordAt t pc with
  | none => exact ⟨0, rfl, rfl⟩
  | some v =>
    obtain ⟨k, hk, hpc⟩ := (wordAt_eq_some_iff t pc v).mp hw
    have hidx : (pc.toNat - t.base.toNat) / 4 = k := by omega
    have hlt : k < t.words.length := (List.getElem?_eq_some_iff.mp hk).1
    exact ⟨k, by simp only [hidx, List.getElem?_set_self hlt], hpc⟩

theorem fetch_withFetchWord (s : State) (w : Word) : fetch (s.withFetchWord 32 w.toNat) = .ok w := by
  have hword : BitVec.ofNat 32 (w.toNat % 2 ^ 32) = w := by
    rw [Nat.mod_eq_of_lt w.isLt, BitVec.ofNat_toNat, BitVec.setWidth_eq]
  rw [fetch_ok_iff, State.withFetchWord_pc, alignPc_toNat]
  refine ⟨Nat.mul_mod_left _ 4, ?_⟩
  simp only [State.withFetchWord, hword, wordAt_placeWord]

/-- Settles O42: the launched word is the one the next step fetches. -/
theorem launchedWordRunsNext : Obligations.LaunchedWordRunsNext := by
  intro s w i hd
  refine ⟨step_of_decode_ok (State.withFetchWord_mark ..) (fetch_withFetchWord s w) hd, rfl, rfl, rfl, fun h4 => ?_⟩
  rw [State.withFetchWord_pc, alignPc_of_aligned h4]

/-! ### Runs of a well-formed text -/

/-- `s` has no mark and stands at word `k` of the text `txt`, or just past its last word. -/
def AtWord (txt : ProgramText) (k : Nat) (s : State) : Prop :=
  s.text = txt ∧ s.mark = none ∧ k ≤ txt.words.length ∧ s.pc.toNat = txt.base.toNat + 4 * k

section wellFormedText

variable {txt : ProgramText} {k : Nat} {s : State}

theorem AtWord.pc_aligned (hs : AtWord txt k s) (htxt : TextWellFormed txt) : s.pc.toNat % 4 = 0 := by
  obtain ⟨hbase, -, -⟩ := htxt
  obtain ⟨-, -, -, hpc⟩ := hs
  omega

/-- R142: before the end of a well-formed text, `pc` is below the last word address. -/
theorem AtWord.pc_ne_last (hs : AtWord txt k s) (htxt : TextWellFormed txt) (hk : k < txt.words.length) :
    s.pc ≠ lastWordAddr := by
  obtain ⟨-, hend, -⟩ := htxt
  obtain ⟨-, -, -, hpc⟩ := hs
  intro he
  have hlast : s.pc.toNat = 0xFFFFFFFC := by rw [he]; rfl
  rw [textEnd] at hend
  omega

/-- R54, R143: at a word of a well-formed text the step runs the valid form it decodes to. -/
theorem AtWord.step_eq_exec (hs : AtWord txt k s) (htxt : TextWellFormed txt) {w : Word} (hw : txt.words[k]? = some w) :
    ∃ i, decode w = .ok i ∧ i.wellFormed = true ∧ step s = exec i s := by
  have h4 := hs.pc_aligned htxt
  obtain ⟨-, -, hvalid⟩ := htxt
  obtain ⟨rfl, hm, -, hpc⟩ := hs
  obtain ⟨i, hd, hwf⟩ := hvalid w (List.mem_of_getElem? hw)
  exact ⟨i, hd, hwf, step_of_decode_ok hm (fetch_of_word h4 hw hpc) hd⟩

/-- R143: at a word of a well-formed text a step goes on to the next word or faults; it is not refused. -/
theorem AtWord.step_next_or_fault (hs : AtWord txt k s) (htxt : TextWellFormed txt) (hk : k < txt.words.length) :
    (∃ t, step s = .next t ∧ AtWord txt (k + 1) t) ∨ ∃ f, step s = .fault f := by
  obtain ⟨i, -, hwf, hstep⟩ := hs.step_eq_exec htxt (List.getElem?_eq_getElem hk)
  have hlast := hs.pc_ne_last htxt hk
  cases hr : step s with
  | next t =>
    obtain ⟨-, htext, -, -, hmark, -⟩ := stepKeepsMemoryAndParameters s t hr
    have hpc : t.pc.toNat = s.pc.toNat + 4 := by rw [step_next_pc hr, pc_add_four (hs.pc_aligned htxt) hlast]
    obtain ⟨rfl, -, -, hk'⟩ := hs
    exact .inl ⟨t, rfl, htext, hmark, hk, by omega⟩
  | fault f => exact .inr ⟨f, rfl⟩
  | refused r =>
    rw [hstep, exec_refused_iff, hwf] at hr
    simp [hlast] at hr

/-- R143: just past the last word a step is answered by the end of the run. -/
theorem AtWord.step_of_end (hs : AtWord txt txt.words.length s) (htxt : TextWellFormed txt) :
    step s = .refused (.endOfRun s.pc) := by
  have h4 := hs.pc_aligned htxt
  obtain ⟨rfl, hm, -, hpc⟩ := hs
  exact step_of_fetch_error hm (fetch_of_end h4 hpc)

theorem AtWord.isFinal_iff (hs : AtWord txt k s) : s.isFinal = true ↔ k = txt.words.length := by
  obtain ⟨rfl, hm, -, hpc⟩ := hs
  simp only [State.isFinal, hm, Option.isNone_none, Bool.true_and, decide_eq_true_eq, hpc, textEnd]
  omega

/-- R143: what `k` marked steps from the base of a well-formed text lead to: a fault, or the word they have come to. -/
def RanTo (txt : ProgramText) (k : Nat) (s : State) : Prop :=
  AtWord txt (min k txt.words.length) s ∨ ∃ f, s.mark = some (.fault f)

/-- R120, R143: one more marked step. -/
theorem RanTo.stepMarked (h : RanTo txt k s) (htxt : TextWellFormed txt) : RanTo txt (k + 1) s.stepMarked := by
  rcases h with hs | ⟨f, hf⟩
  · rcases Nat.lt_or_ge k txt.words.length with hk | hk
    · rw [min_eq_left hk.le] at hs
      rcases hs.step_next_or_fault htxt hk with ⟨t, hstep, ht⟩ | ⟨f, hstep⟩
      · rw [stepMarked_next hstep]
        exact .inl (by rwa [min_eq_left hk])
      · exact .inr ⟨f, by rw [stepMarked_fault hstep]⟩
    · rw [min_eq_right hk] at hs
      rw [stepMarked_endOfRun (hs.step_of_end htxt)]
      exact .inl (by rwa [min_eq_right (by omega)])
  · exact .inr ⟨f, by rw [stepMarked_of_mark hf, hf]⟩

/-- R143: `n` more marked steps. -/
theorem RanTo.runMarked (h : RanTo txt k s) (htxt : TextWellFormed txt) (n : Nat) : RanTo txt (k + n) (s.runMarked n) := by
  induction n generalizing k s with
  | zero => exact h
  | succ n ih =>
    rw [runMarked_succ, Nat.add_comm n 1, ← Nat.add_assoc]
    exact ih (h.stepMarked htxt)

theorem atWord_zero (hm : NoMark s) (hpc : s.pc = s.text.base) : AtWord s.text 0 s :=
  ⟨rfl, hm, Nat.zero_le _, congrArg BitVec.toNat hpc⟩

end wellFormedText

/-- Settles O40: `k` marked steps from the base lead to word `k` or the end of the text, or to a fault. -/
theorem wellFormedTextRunsOnceInOrder : Obligations.WellFormedTextRunsOnceInOrder := by
  rintro s htxt hm hpc k t rfl
  have hstart : RanTo s.text 0 s := .inl (by rw [Nat.zero_min]; exact atWord_zero hm hpc)
  have hrun := hstart.runMarked htxt k
  rw [Nat.zero_add] at hrun
  rcases hrun with hat | ⟨f, hf⟩
  · obtain ⟨-, hmark, -, hpcat⟩ := id hat
    refine ⟨fun _ => hpcat, fun w hw _ => ?_, ?_, fun m hmk => ?_⟩
    · rw [min_eq_left (List.getElem?_eq_some_iff.mp hw).1.le] at hat
      exact hat.step_eq_exec htxt hw
    · rw [hat.isFinal_iff, hmark, min_eq_right_iff]
      exact (and_iff_right rfl).symm
    · rw [hmark] at hmk
      cases hmk
  · simp [hf, State.isFinal]

/-- R143: what the host's run of `k` steps from word `j` of a well-formed text can answer. -/
theorem core_run_of_atWord {txt : ProgramText} (htxt : TextWellFormed txt) (k : Nat) {j : Nat} {s : State}
    (hs : AtWord txt j s) :
    (∀ t, Host.Core.run Sys2Proof.core k s = .next t → AtWord txt (j + k) t) ∧
      ∀ r, Host.Core.run Sys2Proof.core k s = .refused r → txt.words.length < j + k ∧ ∃ pc, r = .endOfRun pc := by
  induction k generalizing j s with
  | zero =>
    rw [core_run_zero]
    refine ⟨fun t h => ?_, nofun⟩
    cases h
    exact hs
  | succ k ih =>
    obtain ⟨-, -, hj, -⟩ := id hs
    rcases Nat.lt_or_eq_of_le hj with hlt | rfl
    · rcases hs.step_next_or_fault htxt hlt with ⟨t, hstep, ht⟩ | ⟨f, hstep⟩
      · rw [core_run_next hstep, Nat.add_comm k 1, ← Nat.add_assoc]
        exact ih ht
      · rw [core_run_fault hstep]
        exact ⟨nofun, nofun⟩
    · rw [core_run_refused (hs.step_of_end htxt)]
      refine ⟨nofun, fun r h => ?_⟩
      cases h
      exact ⟨by omega, _, rfl⟩

/-- Settles O41: a completed run of `k` steps stands at word `k`, and only a step past the last word is refused. -/
theorem runEndsAfterExactlyTheText : Obligations.RunEndsAfterExactlyTheText := by
  intro s htxt hm hpc k
  obtain ⟨hnext, hrefused⟩ := core_run_of_atWord htxt k (atWord_zero hm hpc)
  rw [Nat.zero_add] at hnext hrefused
  refine ⟨fun t h => ?_, hrefused⟩
  have hat := hnext t h
  obtain ⟨-, -, hk, hpcat⟩ := id hat
  exact ⟨hk, hpcat, hat.isFinal_iff⟩

end Sys2Proof.Machine
end

section
/-! PROOFS. The assembler (spec/30_encoding.md section 5): every piece of a line reads back as itself, so the text of a
valid form assembles to it, and no line makes an update form with base field 0. -/

namespace Sys2Proof.Machine

/-! ### Numbers -/

theorem ne_of_isDigit {c d : Char} (hc : c.isDigit = true) (hd : d.isDigit = false) : c ≠ d := by
  rintro rfl
  exact Bool.false_ne_true (hd.symm.trans hc)

/-- R74: the value of a decimal digit. -/
theorem digitValue_of_isDigit {c : Char} (hc : c.isDigit = true) : digitValue 10 c = some (c.toNat - '0'.toNat) := by
  obtain ⟨hlow, hhigh⟩ := Char.isDigit_iff_toNat.mp hc
  have hrange : '0' ≤ c ∧ c ≤ '9' := ⟨Char.le_def.mpr hlow, Char.le_def.mpr hhigh⟩
  have hnine : '9'.toNat - '0'.toNat < 10 := by decide
  rw [digitValue, if_pos hrange, if_pos (by omega)]

/-- R74: decimal digits are read as the number they stand for. -/
theorem readDigits_of_isDigit {cs : List Char} (h : ∀ c ∈ cs, c.isDigit = true) (acc : Nat) :
    readDigits 10 acc cs = some (Nat.ofDigitChars 10 cs acc) := by
  induction cs generalizing acc with
  | nil => rw [readDigits, Nat.ofDigitChars_nil]
  | cons c cs ih =>
    rw [List.forall_mem_cons] at h
    rw [readDigits, digitValue_of_isDigit h.1, Nat.ofDigitChars_cons, Nat.mul_comm 10]
    exact ih h.2 _

theorem isDigit_of_mem_decimal {n : Nat} : ∀ c ∈ Nat.toDigits 10 n, c.isDigit = true :=
  fun _ => Nat.isDigit_of_mem_toDigits (by decide) (by decide)

theorem readDigits_decimal (n : Nat) : readDigits 10 0 (Nat.toDigits 10 n) = some n := by
  rw [readDigits_of_isDigit isDigit_of_mem_decimal, Nat.ofDigitChars_ten_toDigits]

/-- R74: decimal digits are no hexadecimal number, since none of them is `x`. -/
theorem readNat_of_isDigit {cs : List Char} (hne : cs ≠ []) (h : ∀ c ∈ cs, c.isDigit = true) :
    readNat cs = (readDigits 10 0 cs).map fun n => (n, false) := by
  have hx : 'x' ∉ cs := fun hmem => ne_of_isDigit (h 'x' hmem) rfl rfl
  unfold readNat
  split
  · exact absurd rfl hne
  · simp at hx
  · simp at hx
  · rfl

theorem readNat_decimal (n : Nat) : readNat (Nat.toDigits 10 n) = some (n, false) := by
  rw [readNat_of_isDigit Nat.toDigits_ne_nil isDigit_of_mem_decimal, readDigits_decimal]
  rfl

theorem readInt_of_head_ne {c : Char} (cs : List Char) (hc : c ≠ '-') :
    readInt (c :: cs) = (readNat (c :: cs)).map fun n => ((n.1 : Int), n.2) := by
  unfold readInt
  split
  · rename_i heq
    exact absurd (List.cons.inj heq).1 hc
  · rfl

theorem readInt_decimal (n : Nat) : readInt (Nat.toDigits 10 n) = some ((n : Int), false) := by
  cases hcs : Nat.toDigits 10 n with
  | nil => exact absurd hcs Nat.toDigits_ne_nil
  | cons c cs =>
    have hc : c.isDigit = true := isDigit_of_mem_decimal (n := n) c (by simp [hcs])
    rw [readInt_of_head_ne cs (ne_of_isDigit hc rfl), ← hcs, readNat_decimal]
    rfl

/-- R74: a number reads back from its spelling. -/
theorem readInt_spellInt (z : Int) : readInt (spellInt z) = some (z, false) := by
  cases z with
  | ofNat n => exact readInt_decimal n
  | negSucc n =>
    rw [spellInt, readInt, readNat_decimal]
    rfl

/-! ### Words of a line -/

/-- The first character of a number's spelling is its sign or a digit. -/
theorem spellInt_eq_cons (z : Int) : ∃ c cs, spellInt z = c :: cs ∧ (c = '-' ∨ c.isDigit = true) := by
  cases z with
  | ofNat n =>
    obtain ⟨c, cs, hcs⟩ := List.exists_cons_of_ne_nil (Nat.toDigits_ne_nil (n := n) (b := 10))
    exact ⟨c, cs, hcs, .inr (isDigit_of_mem_decimal (n := n) c (by simp [hcs]))⟩
  | negSucc n => exact ⟨'-', _, rfl, .inl rfl⟩

theorem readWord_mnemonic (m : Mnemonic) : readWord (spellMnemonic m) = some (.mnemonic m) := by
  cases m <;> rfl

/-- A word that does not begin like a mnemonic or a register is a number. -/
theorem readWord_of_head_ne {c : Char} (cs : List Char) (hl : c ≠ 'l') (hr : c ≠ 'r') :
    readWord (c :: cs) = (readInt (c :: cs)).map fun n => .num n.1 n.2 := by
  have hm : ∀ m, c :: cs ≠ spellMnemonic m := fun m he => by
    cases m <;> exact hl (List.cons.inj he).1
  unfold readWord
  rw [if_neg (hm _), if_neg (hm _), if_neg (hm _), if_neg (hm _)]
  split
  · rename_i heq
    exact absurd (List.cons.inj heq).1 hr
  · rfl

theorem readWord_spellInt (z : Int) : readWord (spellInt z) = some (.num z false) := by
  obtain ⟨c, cs, hcs, hc⟩ := spellInt_eq_cons z
  have hne : ∀ d : Char, d ≠ '-' → d.isDigit = false → c ≠ d := fun d hminus hdigit => by
    rcases hc with rfl | hc
    · exact hminus.symm
    · exact ne_of_isDigit hc hdigit
  rw [hcs, readWord_of_head_ne cs (hne 'l' (by decide) rfl) (hne 'r' (by decide) rfl), ← hcs, readInt_spellInt]
  rfl

/-- R73: a register number reads back from its digits. -/
theorem readRegNum_decimal (r : RegNum) : readRegNum (Nat.toDigits 10 r.val) = some r := by
  unfold readRegNum
  rw [readDigits_decimal]
  split
  · rename_i hnil
    exact absurd hnil Nat.toDigits_ne_nil
  · rename_i hsome _
    cases hsome
    exact dif_pos r.isLt
  · rename_i hnone _
    cases hnone

theorem readWord_register (r : RegNum) : readWord ('r' :: Nat.toDigits 10 r.val) = some (.reg r) := by
  have hm : ∀ m, 'r' :: Nat.toDigits 10 r.val ≠ spellMnemonic m := fun m he => by
    cases m <;> exact absurd (List.cons.inj he).1 (by decide)
  rw [readWord, if_neg (hm _), if_neg (hm _), if_neg (hm _), if_neg (hm _), readRegNum_decimal]
  rfl

/-! ### Pieces of a line -/

theorem punctuation_of_isDigit {c : Char} (hc : c.isDigit = true) : punctuation c = none := by
  rw [punctuation, if_neg (ne_of_isDigit hc rfl), if_neg (ne_of_isDigit hc rfl), if_neg (ne_of_isDigit hc rfl),
    if_neg (ne_of_isDigit hc rfl)]

/-- A word's characters are gathered. -/
theorem tokenize_append_word {cs : List Char} (h : ∀ c ∈ cs, punctuation c = none) (word rest : List Char) :
    tokenize word (cs ++ rest) = tokenize (word ++ cs) rest := by
  induction cs generalizing word with
  | nil => rw [List.nil_append, List.append_nil]
  | cons c cs ih =>
    rw [List.forall_mem_cons] at h
    rw [List.cons_append, tokenize, h.1]
    exact (ih h.2 _).trans (by rw [List.append_assoc, List.singleton_append])

/-- Punctuation ends the word before it. -/
theorem tokenize_punctuation {c : Char} {word rest : List Char} {p w ts : List Token} (hp : punctuation c = some p)
    (hw : flushWord word = some w) (hrest : tokenize [] rest = some ts) :
    tokenize word (c :: rest) = some (w ++ p ++ ts) := by
  rw [tokenize, hp, hw, hrest]

/-- A piece that is spelled as one word reads back as itself. -/
def ReadsBack (t : Token) : Prop :=
  spellToken t ≠ [] ∧ (∀ c ∈ spellToken t, punctuation c = none) ∧ readWord (spellToken t) = some t

theorem flushWord_of_readWord {cs : List Char} {t : Token} (hne : cs ≠ []) (h : readWord cs = some t) :
    flushWord cs = some [t] := by
  unfold flushWord
  split
  · exact absurd rfl hne
  · rw [h]
    rfl

theorem readsBack_register (r : RegNum) : ReadsBack (.reg r) := by
  refine ⟨List.cons_ne_nil _ _, fun c hc => ?_, readWord_register r⟩
  rcases List.mem_cons.mp hc with rfl | hc
  · rfl
  · exact punctuation_of_isDigit (isDigit_of_mem_decimal c hc)

theorem readsBack_number (z : Int) : ReadsBack (.num z false) := by
  obtain ⟨c, cs, hcs, -⟩ := spellInt_eq_cons z
  refine ⟨by simp [spellToken, hcs], fun c hc => ?_, readWord_spellInt z⟩
  cases z with
  | ofNat n => exact punctuation_of_isDigit (isDigit_of_mem_decimal c hc)
  | negSucc n =>
    rcases List.mem_cons.mp hc with rfl | hc
    · rfl
    · exact punctuation_of_isDigit (isDigit_of_mem_decimal c hc)

theorem readsBack_baseToken (ra : RegNum) : ReadsBack (baseToken ra) := by
  unfold baseToken
  split
  · exact readsBack_number 0
  · exact readsBack_register ra

theorem tokenize_mnemonic (m : Mnemonic) {rest : List Char} {ts : List Token} (hrest : tokenize [] rest = some ts) :
    tokenize [] (spellToken (.mnemonic m) ++ rest) = some (.mnemonic m :: ts) := by
  have hword : ∀ c ∈ spellMnemonic m, punctuation c = none := by
    cases m <;> simp [spellMnemonic, punctuation]
  have hne : spellMnemonic m ≠ [] := by cases m <;> exact List.cons_ne_nil _ _
  rw [spellToken, List.append_assoc, tokenize_append_word hword]
  exact tokenize_punctuation (c := ' ') (p := []) rfl (flushWord_of_readWord hne (readWord_mnemonic m)) hrest

/-- The pieces that are punctuation. -/
def IsPunctuation (p : Token) : Prop := p = .comma ∨ p = .lparen ∨ p = .rparen

/-- A word and the punctuation that ends it. -/
theorem tokenize_word_punctuation {t p : Token} (ht : ReadsBack t) (hp : IsPunctuation p) {rest : List Char}
    {ts : List Token} (hrest : tokenize [] rest = some ts) :
    tokenize [] (spellToken t ++ (spellToken p ++ rest)) = some (t :: p :: ts) := by
  obtain ⟨hne, hchars, hread⟩ := ht
  have hflush := flushWord_of_readWord hne hread
  rw [tokenize_append_word hchars]
  rcases hp with rfl | rfl | rfl
  · exact tokenize_punctuation (c := ',') (p := [.comma]) rfl hflush
      (tokenize_punctuation (c := ' ') (w := []) (p := []) rfl rfl hrest)
  · exact tokenize_punctuation (c := '(') (p := [.lparen]) rfl hflush hrest
  · exact tokenize_punctuation (c := ')') (p := [.rparen]) rfl hflush hrest

theorem tokenize_last_word {t : Token} (ht : ReadsBack t) : tokenize [] (spellToken t ++ []) = some [t] := by
  obtain ⟨hne, hchars, hread⟩ := ht
  rw [tokenize_append_word hchars, List.nil_append, tokenize]
  exact flushWord_of_readWord hne hread

/-! ### Lines -/

/-- R72: the D form's line is cut into the pieces it was spelled from. -/
theorem tokenize_asmD (m : Mnemonic) (rt ra : RegNum) (d : BitVec 16) :
    tokenize [] ((asmD m rt ra d).flatMap spellToken) = some (asmD m rt ra d) :=
  tokenize_mnemonic m (tokenize_word_punctuation (readsBack_register rt) (.inl rfl)
    (tokenize_word_punctuation (readsBack_number d.toInt) (.inr (.inl rfl))
      (tokenize_word_punctuation (readsBack_baseToken ra) (.inr (.inr rfl)) rfl)))

/-- R72: the X form's line is cut into the pieces it was spelled from. -/
theorem tokenize_asmX (m : Mnemonic) (rt ra rb : RegNum) :
    tokenize [] ((asmX m rt ra rb).flatMap spellToken) = some (asmX m rt ra rb) :=
  tokenize_mnemonic m (tokenize_word_punctuation (readsBack_register rt) (.inl rfl)
    (tokenize_word_punctuation (readsBack_baseToken ra) (.inl rfl) (tokenize_last_word (readsBack_register rb))))

theorem tokenize_asmText (i : Instr) : tokenize [] (asmText i) = some (asmTokens i) := by
  cases i with
  | lwz rt ra d => exact tokenize_asmD .lwz rt ra d
  | lwzu rt ra d => exact tokenize_asmD .lwzu rt ra d
  | lwzux rt ra rb => exact tokenize_asmX .lwzux rt ra rb
  | lwzx rt ra rb => exact tokenize_asmX .lwzx rt ra rb

theorem readRA0_baseToken (ra : RegNum) : readRA0 (baseToken ra) = some ra := by
  unfold baseToken
  split
  · rename_i h
    rw [h]
    rfl
  · rfl

theorem readRA_baseToken {ra : RegNum} (h : ra ≠ 0) : readRA (baseToken ra) = some ra := by
  rw [baseToken, if_neg h, readRA, if_neg h]

/-- R74: a displacement in signed decimal is in range. -/
theorem dispField_toInt (d : BitVec 16) : dispField d.toInt false = some d := by
  rw [dispField, if_pos ⟨BitVec.le_toInt d, Int.le_of_lt_add_one BitVec.toInt_lt⟩, BitVec.ofInt_toInt]

/-- R69: the base field of a valid update form is not 0. -/
theorem updateOf_ne_zero {i : Instr} (h : i.wellFormed = true) {ra : RegNum} (hu : updateOf i = some ra) : ra ≠ 0 := by
  cases i with
  | lwz | lwzx => cases hu
  | lwzu | lwzux =>
    cases hu
    simp only [Instr.wellFormed, baseIsNotZero, Bool.and_eq_true, decide_eq_true_eq] at h
    exact h.1

theorem parseLine_asmTokens {i : Instr} (h : i.wellFormed = true) : parseLine (asmTokens i) = some i := by
  cases i with
  | lwz rt ra d => simp only [asmTokens, asmD, parseLine, dispField_toInt, readRA0_baseToken]
  | lwzu rt ra d => simp only [asmTokens, asmD, parseLine, dispField_toInt, readRA_baseToken (updateOf_ne_zero h rfl)]
  | lwzux rt ra rb => simp only [asmTokens, asmX, parseLine, readRA_baseToken (updateOf_ne_zero h rfl), Option.map_some]
  | lwzx rt ra rb => simp only [asmTokens, asmX, parseLine, readRA0_baseToken, Option.map_some]

/-- Settles O43: the text is cut into its pieces again, and they are read as the instruction. -/
theorem assembledSpellingReadsBack : Obligations.AssembledSpellingReadsBack := by
  intro i h
  rw [assemble, tokenize_asmText]
  exact parseLine_asmTokens h

theorem readRA_ne_zero (t : Token) : readRA t ≠ some 0 := by
  cases t with
  | reg r =>
    rw [readRA]
    split
    · exact nofun
    · rename_i h
      exact fun he => h (Option.some.inj he)
  | _ => exact nofun

/-- R69, R73: the base an update form of a line writes back to is never register 0. -/
theorem updateOf_parseLine_ne_zero {ts : List Token} {i : Instr} (h : parseLine ts = some i) : updateOf i ≠ some 0 := by
  unfold parseLine at h
  split at h
  · split at h <;> cases h
    exact nofun
  · split at h
    · rename_i hra
      cases h
      exact fun he => readRA_ne_zero _ (hra.trans he)
    · cases h
  · obtain ⟨ra, hra, rfl⟩ := Option.map_eq_some_iff.mp h
    exact fun he => readRA_ne_zero _ (hra.trans he)
  · obtain ⟨ra, -, rfl⟩ := Option.map_eq_some_iff.mp h
    exact nofun
  · cases h

/-- Settles O44: reading the base of an update form never answers 0. -/
theorem assemblerRefusesZeroBaseUpdates : Obligations.AssemblerRefusesZeroBaseUpdates := by
  intro text rt rb d
  have hline : ∀ i, assemble text = some i → updateOf i ≠ some 0 := fun i h => by
    unfold assemble at h
    split at h
    · exact updateOf_parseLine_ne_zero h
    · cases h
  exact ⟨fun h => hline _ h rfl, fun h => hline _ h rfl⟩

/-- Settles O45, by running the assembler on the eight lines. -/
theorem assemblerLinesFromTheSpec : Obligations.AssemblerLinesFromTheSpec := by
  unfold Obligations.AssemblerLinesFromTheSpec
  decide

end Sys2Proof.Machine
end
